-- ==== Sys2Proof/Word.lean ====
section
/-!
DEFINITION. The words and the small data types of rc5_tx.

A bit vector stands only for what the spec slices, masks or counts with a fixed width: the descriptor, the frame word, the
half-slot index, an element code and the step decode word. A mode, an element and an input vector are their own types.
-/

namespace Sys2Proof

/-- The command descriptor `desc[31:0]`, unsigned (00_scope.md R11). -/
abbrev Desc := BitVec 32

/-- A frame word: 20 bits, the Standard word zero-extended (10_state.md R33). -/
abbrev FrameWord := BitVec 20

/-- The half-slot index `h`, 6 bits (00_scope.md R15). -/
abbrev HalfIdx := BitVec 6

/-- The step decode word `D[36:0]` (30_encoding.md R67). -/
abbrev StepWord := BitVec 37

/-- An element code `e[1:0]` (30_encoding.md R66). -/
abbrev ElementCode := BitVec 2

/-- A level of the output line: Low is false, High is true. There is no third value (00_scope.md R17, 10_state.md R25). -/
abbrev Level := Bool

/-- The protocol mode: 0 is Standard (RC5), 1 is Extended (RC5x) (00_scope.md R3, 10_state.md R32). -/
inductive Mode where
  | standard
  | extended
  deriving DecidableEq, Repr, Inhabited

/-- A frame element: a bit or the pause (30_encoding.md R66). -/
inductive Element where
  | bit (b : Bool)
  | pause
  deriving DecidableEq, Repr

/-- `in_k`: what the host holds on the input ports during one cycle (00_scope.md R19). -/
structure Input where
  rst   : Bool
  start : Bool
  desc  : Desc
  deriving DecidableEq, Repr, Inhabited

end Sys2Proof
end

