-- ==== Sys2Proof/Machine/Operands.lean ====
section
/-!
DEFINITION. Mode dispatch and field extraction: every operand form of the descriptor (30_encoding.md R58 to R61, 40_encoder.md
R76 to R83).
-/

namespace Sys2Proof.Machine

/-- `ModeOf(desc) = (desc[31:16] != 0)` (40_encoder.md R76). -/
def modeOf (desc : Desc) : Mode :=
  if desc.extractLsb' 16 16 != 0#16 then .extended else .standard

/-- The system byte SS of a mode's layout (40_encoder.md R77, R78). -/
def systemByte : Mode → Desc → BitVec 8
  | .standard, desc => desc.extractLsb' 8 8
  | .extended, desc => desc.extractLsb' 16 8

/-- The command byte CC of a mode's layout (40_encoder.md R77, R78). -/
def commandByte : Mode → Desc → BitVec 8
  | .standard, desc => desc.extractLsb' 0 8
  | .extended, desc => desc.extractLsb' 8 8

/-- The data byte DD. Only the Extended layout has one (40_encoder.md R78, R83). -/
def dataByte (desc : Desc) : BitVec 8 := desc.extractLsb' 0 8

/-- `sys5 = SS[4:0]` (40_encoder.md R82). -/
def sys5 (ss : BitVec 8) : BitVec 5 := ss.extractLsb' 0 5

/-- `cmd6 = CC[5:0]` (40_encoder.md R82). -/
def cmd6 (cc : BitVec 8) : BitVec 6 := cc.extractLsb' 0 6

/-- `data6 = DD[5:0]` (40_encoder.md R82). -/
def data6 (dd : BitVec 8) : BitVec 6 := dd.extractLsb' 0 6

/-- The first start bit, constant 1 (40_encoder.md R79, 10_state.md R37). -/
def s1 : BitVec 1 := 1#1

/-- The second start bit: 1 exactly if the unmasked command byte is below 64 (40_encoder.md R80). -/
def s2 (cc : BitVec 8) : BitVec 1 := BitVec.ofBool (cc.ult 64#8)

/-- The toggle bit, constant 1 in both modes (40_encoder.md R81, 00_scope.md R13, 90_conflicts.md C1). -/
def toggle : BitVec 1 := 1#1

end Sys2Proof.Machine
end

