-- ==== Sys2Proof/Machine/Encoder.lean ====
section
/-!
DEFINITION. The command encoder: frame words and element sequences (40_encoder.md R74 to R88). Pure functions of the descriptor.
-/

namespace Sys2Proof.Machine

/-- `W = (1, S2, 1, sys5, cmd6)`, 14 bits (40_encoder.md R84). -/
def assembleStd (desc : Desc) : BitVec 14 :=
  let cc := commandByte .standard desc
  s1 ++ s2 cc ++ toggle ++ sys5 (systemByte .standard desc) ++ cmd6 cc

/-- `X = (1, S2, 1, sys5, cmd6, data6)`, 20 bits (40_encoder.md R85). -/
def assembleExt (desc : Desc) : BitVec 20 :=
  let cc := commandByte .extended desc
  s1 ++ s2 cc ++ toggle ++ sys5 (systemByte .extended desc) ++ cmd6 cc ++ data6 (dataByte desc)

/-- `Encode(desc)` (40_encoder.md R86). -/
def encodeFrame (desc : Desc) : FrameWord :=
  match modeOf desc with
  | .standard => (assembleStd desc).setWidth 20
  | .extended => assembleExt desc

/-- The elements of a frame held as mode and word, first sent first (40_encoder.md R87, R88). -/
def elementsOf : Mode → FrameWord → List Element
  | .standard, f => (List.range 14).map (fun i => .bit (f.getLsbD (13 - i)))
  | .extended, f =>
      (List.range 8).map (fun i => .bit (f.getLsbD (19 - i))) ++ [.pause]
        ++ (List.range 12).map (fun i => .bit (f.getLsbD (11 - i)))

/-- `Elements(desc)` (40_encoder.md R87, R88). -/
def elements (desc : Desc) : List Element := elementsOf (modeOf desc) (encodeFrame desc)

/-- The code of an element, `e = (isPause, value)` (30_encoding.md R66). -/
def elementCode : Element → ElementCode
  | .bit false => 0b00#2
  | .bit true => 0b01#2
  | .pause => 0b10#2

end Sys2Proof.Machine
end

