-- ==== Sys2Proof/Config.lean ====
section
/-!
DEFINITION. What an implementation fixes (the open parameters P and F_CLK) and the free values of the spec.

The parameters are plain data that State carries and no step changes, so that every statement over all states is a statement
over every P >= 1 (00_scope.md R10, log 2). A free value is a constant without a body: nothing can be proved of its value.
-/

namespace Sys2Proof

/-- The open parameters of 00_scope.md R10. `pLast` is P - 1, the value of `c` at which a half-slot ends, so that P is
positive by construction. -/
structure Params where
  /-- P - 1. -/
  pLast : Nat
  /-- F_CLK in Hz. It enters the conformance bound alone. DESIGN CHOICE, unsafe: a whole number of hertz. 00_scope.md R10 says
  Hz and positive and leaves open whether a clock may have a fractional frequency; one that has cannot be stated here (log 2). -/
  fClk  : Nat
  deriving DecidableEq, Repr

/-- P, the clock cycles in one PULSE (00_scope.md R10). -/
def Params.P (p : Params) : Nat := p.pLast + 1

/-- CW = max(1, ceil(log2 P)), the width of `c` (00_scope.md R15). For P >= 1 that is the number of binary digits of P - 1,
and 1 for P = 1. -/
def Params.cw (p : Params) : Nat := Nat.log2 p.pLast + 1

/-- `|P / F_CLK - 889e-6 s| <= 10e-6 s`, multiplied out by 10^6 * F_CLK (00_scope.md R10). -/
def Params.conforming (p : Params) : Bool :=
  decide (0 < p.fClk) &&
    decide (((p.P : Int) * 1000000 - 889 * (p.fClk : Int)).natAbs ≤ 10 * p.fClk)

/-- The reference configuration: F_CLK = 1 MHz and P = 889 (00_scope.md R10). -/
def Params.reference : Params := { pLast := 888, fClk := 1000000 }

namespace Config

/-- The host's input vector in cycle k where its script says nothing more (00_scope.md R8, log 4). -/
opaque hostInput : Nat → Input

/-- `Level(m, f, h)` for `h >= H(m)`: any value (93_implementation_defined.md I9, log 5). -/
opaque levelBeyond : Mode → FrameWord → HalfIdx → Level

/-- The registers at power-on, before the first RESET edge: unspecified (10_state.md R43, log 1). -/
opaque powerOnBusy : Bool
opaque powerOnMode : Mode
opaque powerOnFrame : FrameWord
opaque powerOnH : HalfIdx
opaque powerOnC : Nat
opaque powerOnIrOut : Level

end Config
end Sys2Proof
end

