-- ==== Sys2Proof/Machine/State.lean ====
section
/-!
DEFINITION. The state of the machine, its refusals and its reset.

The model has two agents (00_scope.md R8). `Block` is rc5_tx: the six registers of 10_state.md R30 and nothing else, under its
fixed parameters. `HostAgent` is whoever drives its inputs and reads its outputs. State is the two side by side (log 13).
-/

namespace Sys2Proof.Machine

/-- The six registers of 10_state.md R30. -/
structure Regs where
  /-- 1 while a frame is sent, the block's only flag (10_state.md R31). -/
  busy  : Bool
  /-- The mode of the frame being sent (10_state.md R32). -/
  mode  : Mode
  /-- The frame word being sent (10_state.md R33). -/
  frame : FrameWord
  /-- The half-slot index (10_state.md R34). -/
  h     : HalfIdx
  /-- The cycle counter (10_state.md R35). `Block` holds it to its CW bits (00_scope.md R15, log 8). -/
  c     : Nat
  /-- The level driven on the line (10_state.md R36). -/
  irOut : Level
  deriving DecidableEq, Repr

/-- The reset values of 10_state.md R44. -/
def Regs.reset : Regs :=
  { busy := false, mode := .standard, frame := 0#20, h := 0#6, c := 0, irOut := false }

/-- A statement of the host script of 30_encoding.md R72. Each one carries the value that `desc` has in its cycles (log 3). -/
inductive Stmt where
  /-- One cycle of any input vector (00_scope.md R8). -/
  | drive (i : Input)
  /-- One cycle of `(1, 0, 0)`. -/
  | reset
  /-- One cycle of `(0, 0, d)`. -/
  | nop (d : Desc)
  /-- One cycle of `(0, 1, v)`. -/
  | tx (v : Desc)
  /-- `n` cycles of NOP. -/
  | cycles (n : Nat) (d : Desc)
  /-- NOP cycles while `busy = 1`; ends without a cycle when `busy = 0`. -/
  | waitIdle (d : Desc)
  deriving DecidableEq, Repr

/-- The block rc5_tx: its six registers and the parameters it was configured with, which no step changes. -/
structure Block where
  /-- P and F_CLK (00_scope.md R10, log 2). -/
  params : Params
  /-- The six registers (10_state.md R30). -/
  regs   : Regs
  /-- `c` is CW bits wide: no block holds a larger value (10_state.md R30, 00_scope.md R15). -/
  fits   : regs.c < 2 ^ params.cw
  deriving DecidableEq, Repr

/-- The host: what it has still to drive, and what it knows and has read of the block (00_scope.md R8). -/
structure HostAgent where
  /-- It has applied a RESET edge (10_state.md R43, 70_reset_and_hazards.md R135, log 1). -/
  live     : Bool
  /-- What it has still to drive (30_encoding.md R72, log 3). -/
  script   : List Stmt
  /-- The index k of the current cycle (00_scope.md R19, log 4). -/
  cycle    : Nat
  /-- The codes that are left of the model frame it follows the block by, as the caller of `transmit(frame, gpio)` does
  (41_transmitter.md R92, 30_encoding.md R66, log 6). They set how many clock edges a step covers, never what an edge does. -/
  elements : List ElementCode
  /-- The levels of `ir_out` it read in the cycles that the last step covered, oldest first (00_scope.md R8, log 7). -/
  line     : List Level
  deriving DecidableEq, Repr

/-- The machine: the block and its host. -/
structure State extends Block, HostAgent where
  deriving DecidableEq, Repr

/-- The block raises no exception and has no fault outcome (60_exceptions.md R118): there is no constructor. -/
inductive Fault where
  deriving DecidableEq, Repr

/-- Why a step has no meaning. -/
inductive Refusal where
  /-- Raised by an arm of exec that has no meaning yet. No arm does. Safe: a claim about it is unprovable. -/
  | notModelled (mnemonic : String)
  /-- Raised by the fetch in a cycle before the first RESET edge with `rst = 0`: 10_state.md R43 gives it no meaning. Safe. -/
  | beforeFirstReset
  /-- Raised by the fetch of a model frame that holds the reserved element code 0b11 (30_encoding.md R66). Safe. -/
  | reservedElement
  /-- Raised by the fetch for a step word that no row matches. 30_encoding.md R68 says there is none. Safe. -/
  | noStepRow
  deriving DecidableEq, Repr

/-- The machine right after reset: every register as 10_state.md R44 says, the reference configuration (log 2), no host statement
pending (log 3) and no model frame to follow (log 6). -/
def State.reset : State :=
  { params := Params.reference, regs := Regs.reset, fits := Nat.two_pow_pos _
    live := true, script := [], cycle := 0, elements := [], line := [false] }

end Sys2Proof.Machine
end

