-- ==== Sys2Proof/Machine/Flags.lean ====
section
/-!
DEFINITION. The conditions a clock edge decides on. The block's only flag is the register `busy` (10_state.md R31); `cdone` and
`hlast` are computed from the registers (41_transmitter.md R101).
-/

namespace Sys2Proof.Machine

/-- `H(mode)`, the half-slots of a frame: 28 or 44 (41_transmitter.md R101). -/
def halfSlotCount : Mode → Nat
  | .standard => 28
  | .extended => 44

/-- `cdone = (c == P-1)` (41_transmitter.md R101). -/
def cdone (p : Params) (r : Regs) : Bool := r.c == p.pLast

/-- `hlast = (h == H(mode)-1)` (41_transmitter.md R101). -/
def hlast (r : Regs) : Bool := r.h.toNat == halfSlotCount r.mode - 1

end Sys2Proof.Machine
end

