-- ==== Sys2Proof/Machine/Ops.lean ====
section
/-!
DEFINITION. The operations that the meanings share: the level of a half-slot, the counters, the register write, the clock edge, the
place of the next element and the drive of one element.

There is no exception to take and none to return from: the block has no trap entry, no saved state and no vector (60_exceptions.md
R118, R123, R124). RESET is the only event that cuts off normal operation, and it is an instruction of the table.
-/

namespace Sys2Proof.Machine

/-- One half of a bit: the complement first, the bit itself second (41_transmitter.md R96). -/
def bitHalf (b : Bool) (h : HalfIdx) : Level := if h.getLsbD 0 then b else !b

/-- `Level(m, f, h)` in the closed form of 41_transmitter.md R102. At `h >= H(m)` it is a free value
(93_implementation_defined.md I9, log 5). -/
def level (m : Mode) (f : FrameWord) (h : HalfIdx) : Level :=
  match m with
  | .standard =>
      if h.toNat < 28 then bitHalf (f.getLsbD (13 - h.toNat / 2)) h
      else Config.levelBeyond m f h
  | .extended =>
      if h.toNat < 16 then bitHalf (f.getLsbD (19 - h.toNat / 2)) h
      else if h.toNat < 20 then false
      else if h.toNat < 44 then bitHalf (f.getLsbD (11 - (h.toNat - 20) / 2)) h
      else Config.levelBeyond m f h

/-- `Halves(e)`: the levels of an element's half-slots (41_transmitter.md R96). -/
def halves : Element → List Level
  | .bit b => [!b, b]
  | .pause => [false, false, false, false]

/-- The half-slot sequence of a frame held as mode and word (41_transmitter.md R97). -/
def halfSlotsOf (m : Mode) (f : FrameWord) : List Level := (elementsOf m f).flatMap halves

/-- `HalfSlots(desc)` (41_transmitter.md R97). -/
def halfSlots (desc : Desc) : List Level := halfSlotsOf (modeOf desc) (encodeFrame desc)

/-- Each level held for P cycles: what `ir_out` is cycle by cycle (41_transmitter.md R94, R96). -/
def stretch (p : Params) (levels : List Level) : List Level := levels.flatMap (fun v => List.replicate p.P v)

/-- `c + 1` in the CW bits of `c` (00_scope.md R15, 41_transmitter.md R107, log 8). -/
def incC (p : Params) (c : Nat) : Nat := (c + 1) % 2 ^ p.cw

/-- `h + 1` in the 6 bits of `h` (41_transmitter.md R108). -/
def incH (h : HalfIdx) : HalfIdx := h + 1#6

/-- The registers as the block can hold them: `c` has CW bits (00_scope.md R15, log 8). -/
def Regs.fit (p : Params) (r : Regs) : Regs := { r with c := r.c % 2 ^ p.cw }

theorem Regs.fit_lt (p : Params) (r : Regs) : (r.fit p).c < 2 ^ p.cw := Nat.mod_lt _ (Nat.two_pow_pos _)

/-- The one write of the registers: all six at once (00_scope.md R18). -/
def State.withRegs (s : State) (r : Regs) : State := { s with regs := r.fit s.params, fits := r.fit_lt s.params }

/-- One clock edge: the registers take their new values, a cycle begins, and the line has the new level in it (10_state.md R21,
R25, 00_scope.md R19). -/
def State.clock (s : State) (r : Regs) : State :=
  { s.withRegs r with cycle := s.cycle + 1, line := [r.irOut] }

/-- The registers after an accept of a frame (41_transmitter.md R105). -/
def acceptRegs (m : Mode) (f : FrameWord) : Regs :=
  { busy := true, mode := m, frame := f, h := 0#6, c := 0, irOut := level m f 0#6 }

/-- The half-slot in which the next element starts: `h` itself in an element's first half-slot, the next one in its last. Elements
start at even half-slots and end at odd ones (41_transmitter.md R97, log 6). -/
def elementStart (h : HalfIdx) : HalfIdx := h + (h &&& 1#6)

/-- The last half-slot of an element of `n` half-slots. -/
def elementEnd (h : HalfIdx) (n : Nat) : HalfIdx := elementStart h + BitVec.ofNat 6 (n - 1)

/-- The index of the element that starts at half-slot `j` (41_transmitter.md R97): two half-slots for each bit, four for the pause
at 16 to 19. -/
def elementIndex : Mode → Nat → Nat
  | .standard, j => j / 2
  | .extended, j => if j ≤ 16 then j / 2 else j / 2 - 1

/-- The elements of the frame in progress from the next element start on. -/
def remainingElements (r : Regs) : List Element :=
  (elementsOf r.mode r.frame).drop (elementIndex r.mode (elementStart r.h).toNat)

/-- The block is inside its frame, in the first cycle of an element or in the last one, and drives the level of that half-slot
(10_state.md R42). Half-slots 17 and 18 of an Extended frame lie inside the pause and are neither. -/
def atElementBoundary (p : Params) (r : Regs) : Bool :=
  r.busy && decide (r.h.toNat < halfSlotCount r.mode) && r.irOut == level r.mode r.frame r.h &&
    !(r.mode == .extended && (r.h == 17#6 || r.h == 18#6)) &&
    (if r.h.getLsbD 0 then r.c == p.pLast else r.c == 0)

/-- The clock edges from the current cycle to the last cycle of an element of `n` half-slots (41_transmitter.md R112, log 6). -/
def edgesToSend (p : Params) (r : Regs) (n : Nat) : Nat :=
  ((elementEnd r.h n).toNat * p.P + p.pLast) - (r.h.toNat * p.P + r.c)

/-- Send one element: drive each level of `levels` for P cycles, from the half-slot where the element starts, and stop in the last
cycle of its last half-slot. `busy`, `mode` and `frame` keep their values (41_transmitter.md R96, R98 to R100, log 6). -/
def State.sendElement (s : State) (levels : List Level) : State :=
  { s.withRegs { s.regs with
      h := elementEnd s.regs.h levels.length, c := s.params.pLast, irOut := levels.getLastD s.regs.irOut } with
    cycle := s.cycle + edgesToSend s.params s.regs levels.length
    line := stretch s.params levels }

end Sys2Proof.Machine
end

