-- ==== Sys2Proof/Machine/Accept.lean ====
section
/-!
DEFINITION. The two accepts, TX_STD and TX_EXT: assemble the frame from the descriptor and start sending it (40_encoder.md R84,
R85, 41_transmitter.md R105).
-/

namespace Sys2Proof.Machine

/-- TX_STD: accept a Standard frame (40_encoder.md R84, 41_transmitter.md R105). -/
def execTxStd (desc : Desc) (s : State) : Host.Outcome State Fault Refusal :=
  .next (s.clock (acceptRegs .standard ((assembleStd desc).setWidth 20)))

/-- TX_EXT: accept an Extended frame (40_encoder.md R85, 41_transmitter.md R105). -/
def execTxExt (desc : Desc) (s : State) : Host.Outcome State Fault Refusal :=
  .next (s.clock (acceptRegs .extended (assembleExt desc)))

end Sys2Proof.Machine
end

