-- ==== Sys2Proof/Machine/Elements.lean ====
section
/-!
DEFINITION. The element primitives BIT0, BIT1 and PAUSE (41_transmitter.md R98 to R100). One step sends one whole element.
-/

namespace Sys2Proof.Machine

/-- BIT0: High for one half-slot, then Low for one (41_transmitter.md R98). -/
def execBit0 (s : State) : Host.Outcome State Fault Refusal :=
  .next (s.sendElement [true, false])

/-- BIT1: Low for one half-slot, then High for one (41_transmitter.md R99). -/
def execBit1 (s : State) : Host.Outcome State Fault Refusal :=
  .next (s.sendElement [false, true])

/-- PAUSE: Low for four half-slots (41_transmitter.md R100). -/
def execPause (s : State) : Host.Outcome State Fault Refusal :=
  .next (s.sendElement [false, false, false, false])

end Sys2Proof.Machine
end

