-- ==== Sys2Proof/Machine/Sequencer.lean ====
section
/-!
DEFINITION. The clock edges that accept nothing: RESET, NOP, HOLD, ADVANCE and FINISH (41_transmitter.md R103, R104, R107 to R109).
-/

namespace Sys2Proof.Machine

/-- RESET: every register to its reset value, whatever the state; a frame in progress is abandoned, and the state is meaningful from
here on (41_transmitter.md R104, 10_state.md R43, R44). -/
def execReset (s : State) : Host.Outcome State Fault Refusal :=
  .next { s.clock Regs.reset with live := true, elements := [] }

/-- NOP: no register changes (41_transmitter.md R103). -/
def execNop (s : State) : Host.Outcome State Fault Refusal :=
  .next (s.clock s.regs)

/-- HOLD: `c <- c + 1` (41_transmitter.md R107). -/
def execHold (s : State) : Host.Outcome State Fault Refusal :=
  .next (s.clock { s.regs with c := incC s.params s.regs.c })

/-- ADVANCE: the next half-slot begins with its level (41_transmitter.md R108). -/
def execAdvance (s : State) : Host.Outcome State Fault Refusal :=
  .next (s.clock { s.regs with
    h := incH s.regs.h, c := 0, irOut := level s.regs.mode s.regs.frame (incH s.regs.h) })

/-- FINISH: the frame ends and the line goes Low; `mode` and `frame` keep their values (41_transmitter.md R109). -/
def execFinish (s : State) : Host.Outcome State Fault Refusal :=
  .next (s.clock { s.regs with busy := false, h := 0#6, c := 0, irOut := false })

end Sys2Proof.Machine
end

