-- ==== Sys2Proof/Syntax.lean ====
section
/-!
DEFINITION. The instructions: one constructor per row of spec/opcode_table.json, in the table's order.

The first seven are the rows of the step decode (30_encoding.md R68): what one clock edge does. The last three are the element
primitives (30_encoding.md R69): what sending one frame element does. Bits of the step word that a row leaves out of its mask
(`start` while busy, for example) have no effect and are no operand.
-/

namespace Sys2Proof

/-- One row of the opcode table. -/
inductive Instr where
  /-- RESET, 41_transmitter.md R104. -/
  | reset
  /-- NOP, 41_transmitter.md R103. -/
  | nop
  /-- TX_STD, 40_encoder.md R84 and 41_transmitter.md R105. The operand is `desc[31:0]` with `desc[31:16] = 0`. -/
  | txStd (desc : Desc)
  /-- TX_EXT, 40_encoder.md R85 and 41_transmitter.md R105. The operand is `desc[31:0]` with `desc[31:16] != 0`. -/
  | txExt (desc : Desc)
  /-- HOLD, 41_transmitter.md R107. -/
  | hold
  /-- ADVANCE, 41_transmitter.md R108. -/
  | advance
  /-- FINISH, 41_transmitter.md R109. -/
  | finish
  /-- BIT0, 41_transmitter.md R98. -/
  | bit0
  /-- BIT1, 41_transmitter.md R99. -/
  | bit1
  /-- PAUSE, 41_transmitter.md R100. -/
  | pause
  deriving DecidableEq, Repr

end Sys2Proof
end

