-- ==== Sys2Proof/Machine/Dispatch.lean ====
section
/-! DEFINITION. What each instruction does: one arm per row of the opcode table. -/

namespace Sys2Proof.Machine

def exec (i : Instr) (s : State) : Host.Outcome State Fault Refusal :=
  match i with
  | .reset => Sys2Proof.Machine.execReset s
  | .nop => Sys2Proof.Machine.execNop s
  | .txStd desc => Sys2Proof.Machine.execTxStd desc s
  | .txExt desc => Sys2Proof.Machine.execTxExt desc s
  | .hold => Sys2Proof.Machine.execHold s
  | .advance => Sys2Proof.Machine.execAdvance s
  | .finish => Sys2Proof.Machine.execFinish s
  | .bit0 => Sys2Proof.Machine.execBit0 s
  | .bit1 => Sys2Proof.Machine.execBit1 s
  | .pause => Sys2Proof.Machine.execPause s

end Sys2Proof.Machine
end

