-- ==== Sys2Proof/WellFormed.lean ====
section
/-!
DEFINITION. Which instructions the encoding admits.

The only operand is the descriptor of the two accepts, and its upper half selects the format (30_encoding.md R58 to R60): zero for
TX_STD, nonzero for TX_EXT.
-/

namespace Sys2Proof

/-- The instruction can stand in a step word or an element code: the format selection of 30_encoding.md R60 agrees with the row. -/
def Instr.wellFormed : Instr → Bool
  | .reset => true
  | .nop => true
  | .txStd desc => desc.extractLsb' 16 16 == 0#16
  | .txExt desc => desc.extractLsb' 16 16 != 0#16
  | .hold => true
  | .advance => true
  | .finish => true
  | .bit0 => true
  | .bit1 => true
  | .pause => true

end Sys2Proof
end

