-- ==== Sys2Proof/Decode.lean ====
section
/-!
DEFINITION. The step decode table, the element codes, the decoder and the encoder (30_encoding.md R66 to R69).

rc5_tx stores no instruction words. A raw word is either the step decode word D, which one clock edge decides on, or an element
code of a model frame.
-/

namespace Sys2Proof

/-- A word of one of the table's two formats. -/
inductive RawWord where
  /-- The step decode word `D[36:0]` (30_encoding.md R67). -/
  | edge (d : StepWord)
  /-- An element code `e[1:0]` (30_encoding.md R66). -/
  | element (e : ElementCode)
  deriving DecidableEq, Repr

/-- Why a word has no instruction. -/
inductive DecodeError where
  /-- No row of the step decode table matches. 30_encoding.md R68 says this cannot happen. -/
  | noStepRow (d : StepWord)
  /-- The reserved element code 0b11 (30_encoding.md R66). -/
  | reservedElement
  deriving DecidableEq, Repr

/-- One row of 30_encoding.md R68: mask, match, the extra condition on `desc`, and the instruction. -/
structure StepRow where
  mask  : StepWord
  value : StepWord
  extra : Desc → Bool
  build : Desc → Instr

/-- The descriptor field `D[31:0]`. -/
def StepWord.desc (d : StepWord) : Desc := d.setWidth 32

/-- The row applies to the step word. -/
def StepRow.applies (r : StepRow) (d : StepWord) : Bool :=
  (d &&& r.mask) == r.value && r.extra (StepWord.desc d)

/-- The table of 30_encoding.md R68, in the order in which it is tried. -/
def stepTable : List StepRow :=
  [ { mask := 0x1000000000#37, value := 0x1000000000#37, extra := fun _ => true, build := fun _ => .reset },
    { mask := 0x1C00000000#37, value := 0x0000000000#37, extra := fun _ => true, build := fun _ => .nop },
    { mask := 0x1CFFFF0000#37, value := 0x0400000000#37, extra := fun _ => true, build := fun v => .txStd v },
    { mask := 0x1C00000000#37, value := 0x0400000000#37, extra := fun v => v.extractLsb' 16 16 != 0#16,
      build := fun v => .txExt v },
    { mask := 0x1A00000000#37, value := 0x0800000000#37, extra := fun _ => true, build := fun _ => .hold },
    { mask := 0x1B00000000#37, value := 0x0A00000000#37, extra := fun _ => true, build := fun _ => .advance },
    { mask := 0x1B00000000#37, value := 0x0B00000000#37, extra := fun _ => true, build := fun _ => .finish } ]

/-- The first row that applies gives the instruction (30_encoding.md R68). -/
def decodeStep (d : StepWord) : Except DecodeError Instr :=
  match stepTable.find? (fun r => r.applies d) with
  | some r => .ok (r.build (StepWord.desc d))
  | none => .error (.noStepRow d)

/-- The element rows (30_encoding.md R66, R69). -/
def decodeElement (e : ElementCode) : Except DecodeError Instr :=
  if e == 0b00#2 then .ok .bit0
  else if e == 0b01#2 then .ok .bit1
  else if e == 0b10#2 then .ok .pause
  else .error .reservedElement

/-- The decoder: total on both formats. -/
def decode : RawWord → Except DecodeError Instr
  | .edge d => decodeStep d
  | .element e => decodeElement e

/-- The word of an instruction: its row's match, with the descriptor in `D[31:0]` for the accepts. -/
def encode : Instr → RawWord
  | .reset => .edge 0x1000000000#37
  | .nop => .edge 0x0000000000#37
  | .txStd desc => .edge (0x0400000000#37 ||| desc.setWidth 37)
  | .txExt desc => .edge (0x0400000000#37 ||| desc.setWidth 37)
  | .hold => .edge 0x0800000000#37
  | .advance => .edge 0x0A00000000#37
  | .finish => .edge 0x0B00000000#37
  | .bit0 => .element 0b00#2
  | .bit1 => .element 0b01#2
  | .pause => .element 0b10#2

/-- The word of `nbits` bits that spec/opcode_table.json writes: 37 bits and more hold a step word, fewer hold an element code.
The bits that fill the last byte are no part of either (log 10). -/
def rawTableWord (nbits w : Nat) : RawWord :=
  if nbits < 37 then .element (BitVec.ofNat 2 w) else .edge (BitVec.ofNat 37 w)

/-- The instruction that the decoder reads from a word as the opcode table numbers its bits. -/
def decodeTableWord (nbits w : Nat) : Option Instr :=
  match decode (rawTableWord nbits w) with
  | .ok i => some i
  | .error _ => none

end Sys2Proof
end

