-- ==== Sys2Proof/Machine/Script.lean ====
section
/-!
DEFINITION. The host agent: which input vector its script presents in the current cycle (30_encoding.md R72, 00_scope.md R8, R19).
-/

namespace Sys2Proof.Machine

/-- The input vector of the current cycle and the script after it, or none where the script is at its end. `busy` is the registered
flag that WAIT_IDLE looks at (30_encoding.md R72). -/
def present : List Stmt → Bool → Option (Input × List Stmt)
  | [], _ => none
  | .drive i :: rest, _ => some (i, rest)
  | .reset :: rest, _ => some (⟨true, false, 0#32⟩, rest)
  | .nop d :: rest, _ => some (⟨false, false, d⟩, rest)
  | .tx v :: rest, _ => some (⟨false, true, v⟩, rest)
  | .cycles 0 _ :: rest, busy => present rest busy
  | .cycles (n + 1) d :: rest, _ => some (⟨false, false, d⟩, .cycles n d :: rest)
  | .waitIdle d :: rest, true => some (⟨false, false, d⟩, .waitIdle d :: rest)
  | .waitIdle _ :: rest, false => present rest false

/-- What remains of a script after `n` cycles in which the block stays busy, or none where the script presents a reset in them or
does not reach to their end. It is `present` taken `n` times, a statement at a time. -/
def passQuiet : Nat → List Stmt → Option (List Stmt)
  | 0, script => some script
  | _ + 1, [] => none
  | n + 1, .drive i :: rest => if i.rst then none else passQuiet n rest
  | _ + 1, .reset :: _ => none
  | n + 1, .nop _ :: rest => passQuiet n rest
  | n + 1, .tx _ :: rest => passQuiet n rest
  | n + 1, .cycles m d :: rest => if m ≤ n then passQuiet (n + 1 - m) rest else some (.cycles (m - (n + 1)) d :: rest)
  | _ + 1, .waitIdle d :: rest => some (.waitIdle d :: rest)

/-- `in_k` and what remains of the script. Past the script's end the host's inputs are free values (log 4). -/
def State.presented (s : State) : Input × List Stmt :=
  (present s.script s.regs.busy).getD (Config.hostInput s.cycle, [])

/-- `in_k`: the input vector the host holds in the current cycle (00_scope.md R19). -/
def State.input (s : State) : Input := s.presented.1

end Sys2Proof.Machine
end

