-- ==== Sys2Proof/Machine/Fetch.lean ====
section
/-!
DEFINITION. What the next step runs: the step word of a clock edge, or the next element of the frame in progress; and the state in
which the host finds a given word fetched next.
-/

namespace Sys2Proof.Machine

/-- `D = (rst, busy, start, cdone, hlast, desc)`, most significant first (30_encoding.md R67). -/
def stepWord (p : Params) (r : Regs) (i : Input) : StepWord :=
  BitVec.ofBool i.rst ++ BitVec.ofBool r.busy ++ BitVec.ofBool i.start ++ BitVec.ofBool (cdone p r)
    ++ BitVec.ofBool (hlast r) ++ i.desc

/-- A clock edge: decode the step word of the registers and the presented input, and move past that input. -/
def fetchEdge (s : State) : Except Refusal (Instr × State) :=
  match decode (.edge (stepWord s.params s.regs s.input)) with
  | .ok i => .ok (i, { s with script := s.presented.2 })
  | .error _ => .error .noStepRow

/-- The element step that the host's model frame asks for: its next code is the code of the next element of the frame in the
registers, the block is at an element boundary, and no reset is presented in the element's cycles. In every other state there is
none, and the step is a clock edge (30_encoding.md R69, log 6). -/
def State.playedElement (s : State) : Option (Instr × State) :=
  match s.elements, (remainingElements s.regs).head? with
  | code :: rest, some e =>
    if atElementBoundary s.params s.regs && elementCode e == code then
      match decode (.element code), passQuiet (edgesToSend s.params s.regs (halves e).length) s.script with
      | .ok i, some after => some (i, { s with elements := rest, script := after })
      | _, _ => none
    else none
  | _, _ => none

/-- An edge with `rst = 1` is a RESET in every state (10_state.md R22). Otherwise a state before the first RESET edge has no meaning
(10_state.md R43). After it, while `busy = 1`, a model frame that holds the reserved code has no meaning (30_encoding.md R66,
93_implementation_defined.md I8), and one that agrees with the registers is followed an element at a time. Every other step is a
clock edge. -/
def State.fetch (s : State) : Except Refusal (Instr × State) :=
  if s.input.rst then fetchEdge s
  else if s.live then
    if s.regs.busy then
      if s.elements.contains 0b11#2 then .error .reservedElement
      else
        match s.playedElement with
        | some next => .ok next
        | none => fetchEdge s
    else fetchEdge s
  else .error .beforeFirstReset

/-- Registers whose step word has the given `busy`, `cdone` and `hlast`: each counter keeps its value where it already fits. -/
def Regs.withStepBits (r : Regs) (p : Params) (busy cdone hlast : Bool) : Regs :=
  { r with
    busy := busy
    c := if cdone then p.pLast else if r.c != p.pLast then r.c else if p.pLast = 0 then 1 else 0
    h := if hlast then BitVec.ofNat 6 (halfSlotCount r.mode - 1)
         else if r.h.toNat != halfSlotCount r.mode - 1 then r.h else 0#6 }

/-- `f` with bit `i` set to `v`. -/
def FrameWord.setBit (f : FrameWord) (i : Nat) (v : Bool) : FrameWord :=
  if v then f ||| (1#20 <<< i) else f &&& ~~~(1#20 <<< i)

/-- Registers that are sending, in the first cycle of an element with the code `e`: the pause of an Extended frame, or element 3 of
a frame of the same mode, with the bit of the frame word that this element sends (40_encoder.md R87, R88). -/
def Regs.withElementNext (r : Regs) (e : ElementCode) : Regs :=
  if e.getLsbD 1 then { r with busy := true, mode := .extended, h := 16#6, c := 0, irOut := false }
  else
    { r with
      busy := true
      frame := FrameWord.setBit r.frame (match r.mode with | .standard => 10 | .extended => 16) (e.getLsbD 0)
      h := 6#6
      c := 0
      irOut := !e.getLsbD 0 }

/-- `s` with the step word `d` fetched next: `rst`, `start` and `desc` on the input ports, and the register bits in the registers. -/
def State.withStepWord (s : State) (d : StepWord) : State :=
  { s.withRegs (s.regs.withStepBits s.params (d.getLsbD 35) (d.getLsbD 33) (d.getLsbD 32)) with
    live := true
    elements := []
    script := .drive ⟨d.getLsbD 36, d.getLsbD 34, StepWord.desc d⟩ :: s.script }

/-- `s` with the element code `e` fetched next: a frame whose next element has that code, a model frame of that one code, and a host
that waits. -/
def State.withElement (s : State) (e : ElementCode) : State :=
  { s.withRegs (s.regs.withElementNext e) with live := true, elements := [e], script := .waitIdle 0#32 :: s.script }

/-- `s` with a raw word fetched next. -/
def State.withRawWord (s : State) : RawWord → State
  | .edge d => s.withStepWord d
  | .element e => s.withElement e

end Sys2Proof.Machine
end

