-- ==== Sys2Proof/Machine/Step.lean ====
section
/-! DEFINITION. One step: fetch, then run. A step is one clock edge, or one element of the frame in progress (log 6). -/

namespace Sys2Proof.Machine

/-- One step of the machine (41_transmitter.md R111). -/
def step (s : State) : Host.Outcome State Fault Refusal :=
  match s.fetch with
  | .ok (i, s') => exec i s'
  | .error r => .refused r

/-- `s` with the opcode-table word `w` of `nbits` bits where the next step fetches it (log 9). -/
def State.withFetchWord (s : State) (nbits w : Nat) : State := s.withRawWord (rawTableWord nbits w)

end Sys2Proof.Machine
end

