-- ==== Sys2Proof/Machine/Boot.lean ====
section
/-! DEFINITION. The machine at power-on, before its first RESET edge (10_state.md R43, 70_reset_and_hazards.md R135, R136). -/

namespace Sys2Proof.Machine

/-- Power-on: every register is a free value, and no edge has reset the block yet (10_state.md R43, log 1). -/
def State.powerOn (p : Params) (script : List Stmt) : State :=
  { params := p
    regs :=
      { busy := Config.powerOnBusy, mode := Config.powerOnMode, frame := Config.powerOnFrame, h := Config.powerOnH,
        c := Config.powerOnC % 2 ^ p.cw, irOut := Config.powerOnIrOut }
    fits := Nat.mod_lt _ (Nat.two_pow_pos _)
    live := false
    script := script
    cycle := 0
    elements := []
    line := [Config.powerOnIrOut] }

end Sys2Proof.Machine
end

