-- ==== Sys2Proof/Machine/Ports.lean ====
section
/-!
DEFINITION. The output ports (10_state.md R25 to R28). They are functions of the state, so reading one has no side effect
(20_memory.md R52).
-/

namespace Sys2Proof.Machine

/-- What the host reads in one cycle. -/
structure Outputs where
  irOut   : Level
  busy    : Bool
  encExt  : Bool
  encWord : FrameWord
  deriving DecidableEq, Repr

/-- The port value of a mode: 0 is Standard, 1 is Extended (10_state.md R27). -/
def modeBit : Mode → Bool
  | .standard => false
  | .extended => true

/-- The outputs during the current cycle: the registered ones from the registers, the combinational ones from the `desc` of the
same cycle (00_scope.md R19, 10_state.md R25 to R28). -/
def State.outputs (s : State) : Outputs :=
  { irOut := s.regs.irOut, busy := s.regs.busy,
    encExt := modeBit (modeOf s.input.desc), encWord := encodeFrame s.input.desc }

end Sys2Proof.Machine
end

