-- ==== Sys2Proof/Safety.lean ====
section
/-!
DEFINITION. The terms that claims use: the invariants of the reached states, the run of many steps, the waveform, the rules'
own listing of a step, and the duties of the host.
-/

namespace Sys2Proof.Machine

/-- 10_state.md R42: what holds of the registers in every state reached from a RESET edge. -/
structure RegsInv (p : Params) (r : Regs) : Prop where
  /-- (a) An idle block is at Low, at half-slot 0, at cycle 0. -/
  idle : r.busy = false → r.irOut = false ∧ r.h = 0#6 ∧ r.c = 0
  /-- (b) A sending block is inside its frame and inside its half-slot. -/
  inFrame : r.busy = true → r.h.toNat < halfSlotCount r.mode ∧ r.c < p.P
  /-- (c) The line has the level of the half-slot being sent. -/
  driven : r.busy = true → r.irOut = level r.mode r.frame r.h
  /-- (d) A Standard frame word is zero-extended. -/
  zeroExtended : r.mode = .standard → r.frame.extractLsb' 14 6 = 0#6

/-- The invariant of the whole machine: R42, after the first reset, and no reserved code in the host's model frame (log 6). -/
structure Inv (s : State) : Prop where
  live : s.live = true
  regs : RegsInv s.params s.regs
  frameCodes : 0b11#2 ∉ s.elements

/-- The next step is a clock edge: a reset is presented, or the block is past its first reset and the step neither sends a whole
element nor meets a reserved element code. -/
abbrev State.atEdge (s : State) : Prop :=
  s.input.rst = true ∨
    (s.live = true ∧ (s.regs.busy = false ∨ (0b11#2 ∉ s.elements ∧ s.playedElement.isNone = true)))

/-- `n` steps, stopping at the first that does not answer a next state. -/
def run : Nat → State → Host.Outcome State Fault Refusal
  | 0, s => .next s
  | n + 1, s =>
    match step s with
    | .next t => run n t
    | .fault r => .fault r
    | .refused r => .refused r

/-- The levels on the line over the next `n` steps. -/
def wave : Nat → State → List Level
  | 0, _ => []
  | n + 1, s =>
    match step s with
    | .next t => t.line ++ wave n t
    | _ => []

/-- The registers after a clock edge, as 41_transmitter.md R111 lists them. -/
def listedStep (p : Params) (r : Regs) (i : Input) : Regs :=
  if i.rst then { busy := false, mode := .standard, frame := 0#20, h := 0#6, c := 0, irOut := false }
  else if r.busy = false then
    if i.start = false then r
    else
      { busy := true, mode := modeOf i.desc, frame := encodeFrame i.desc, h := 0#6, c := 0,
        irOut := level (modeOf i.desc) (encodeFrame i.desc) 0#6 }
  else if r.c ≠ p.P - 1 then { r with c := r.c + 1 }
  else if r.h.toNat ≠ halfSlotCount r.mode - 1 then
    { r with h := r.h + 1#6, c := 0, irOut := level r.mode r.frame (r.h + 1#6) }
  else { r with busy := false, h := 0#6, c := 0, irOut := false }

/-- The number of level changes between consecutive entries (95_test_vectors.md L2-4). -/
def transitions : List Level → Nat
  | a :: b :: rest => (if a = b then 0 else 1) + transitions (b :: rest)
  | _ => 0

/-- The host's first duty: it requests only while the block is idle (70_reset_and_hazards.md R138). A claim that every request sends
a frame needs it as a premise (93_implementation_defined.md I1). -/
def State.serialised (s : State) : Bool := !s.input.start || !s.regs.busy

/-- The start bit S1 and the toggle of a frame being sent are the constants of 10_state.md R37, where 30_encoding.md R64 and R65 put
them. -/
def constantBits (r : Regs) : Prop :=
  r.busy = true →
    match r.mode with
    | .standard => r.frame.getLsbD 13 = true ∧ r.frame.getLsbD 11 = true
    | .extended => r.frame.getLsbD 19 = true ∧ r.frame.getLsbD 17 = true

/-- The descriptors on which the frame determines every field (40_encoder.md R91). -/
abbrev inInjectiveDomain (v : Desc) : Prop :=
  (systemByte (modeOf v) v).toNat < 32 ∧ (commandByte (modeOf v) v).toNat < 128 ∧
    (modeOf v = .extended → systemByte .extended v ≠ 0#8 ∧ (dataByte v).toNat < 64)

/-- The input vectors of the next `n` cycles and the script after them, while `busy` stays as it is. -/
def presentN : Nat → List Stmt → Bool → Option (List Input × List Stmt)
  | 0, script, _ => some ([], script)
  | n + 1, script, busy =>
    match present script busy with
    | some (i, rest) =>
      match presentN n rest busy with
      | some (is, after) => some (i :: is, after)
      | none => none
    | none => none

/-- The block is idle after a reset, and the host follows no model frame. -/
def State.ready (s : State) : Bool := s.live && !s.regs.busy && s.elements.isEmpty

end Sys2Proof.Machine
end

