-- ==== Sys2Proof/Certificates/Slice0/Obligations.lean ====
section
/-!
DEFINITION. The statements for the provers. Each says which rule of spec/ it formalises; a clause that is the model's own choice
names its log entry.
-/

open Sys2Proof Sys2Proof.Machine

-- ---------------------------------------------------------------- fetch, decode, encode

/-- 41_transmitter.md R111: a step runs the instruction that its word decodes to, on the state past the presented input (at a clock
edge), or on the state past the element and the inputs of its cycles (where the host's model frame names the next element of the
frame in progress: log 6). -/
def Obligations.StepRunsDecodedInstruction : Prop :=
  ∀ (s : State) (i : Instr), i.wellFormed = true →
    (s.atEdge → decode (.edge (stepWord s.params s.regs s.input)) = .ok i →
      step s = exec i { s with script := s.presented.2 }) ∧
    (∀ e rest after, s.input.rst = false → s.live = true → 0b11#2 ∉ s.elements → s.elements = elementCode e :: rest →
      (remainingElements s.regs).head? = some e → atElementBoundary s.params s.regs = true →
      passQuiet (edgesToSend s.params s.regs (halves e).length) s.script = some after →
      decode (.element (elementCode e)) = .ok i → step s = exec i { s with elements := rest, script := after })

/-- Words written out from 30_encoding.md R67 and R69 (95_test_vectors.md L2-6) decode to the rows they stand for. -/
def Obligations.WrittenWordsDecode : Prop :=
  decodeTableWord 40 0x1400000000 = some .reset ∧ decodeTableWord 40 0x00FFFFFFFF = some .nop ∧
  decodeTableWord 40 0x040000100C = some (.txStd 0x100C#32) ∧ decodeTableWord 40 0x0400100C01 = some (.txExt 0x100C01#32) ∧
  decodeTableWord 40 0x0C00000000 = some .hold ∧ decodeTableWord 40 0x0A00000000 = some .advance ∧
  decodeTableWord 40 0x0F00000000 = some .finish ∧ decodeTableWord 8 0 = some .bit0 ∧ decodeTableWord 8 1 = some .bit1 ∧
  decodeTableWord 8 2 = some .pause ∧ decodeTableWord 8 3 = none

/-- Decoding the word of a well-formed instruction gives it back, whatever its descriptor. -/
def Obligations.DecodeOfEncodeIsIdentity : Prop :=
  ∀ i : Instr, i.wellFormed = true → decode (encode i) = .ok i

/-- What the decoder answers is well formed, and the word of that instruction decodes to it again. -/
def Obligations.DecoderAnswersWellFormed : Prop :=
  ∀ (w : RawWord) (i : Instr), decode w = .ok i → i.wellFormed = true ∧ decode (encode i) = .ok i

/-- 30_encoding.md R68: the rows are tried in order, the first match wins, and exactly one row applies to every word. -/
def Obligations.EveryStepWordHasItsRow : Prop :=
  ∀ d : StepWord,
    let v := StepWord.desc d
    (d &&& 0x1000000000#37 = 0x1000000000#37 → decode (.edge d) = .ok .reset) ∧
    (d &&& 0x1000000000#37 ≠ 0x1000000000#37 →
      (d &&& 0x1C00000000#37 = 0#37 → decode (.edge d) = .ok .nop) ∧
      (d &&& 0x1CFFFF0000#37 = 0x0400000000#37 → decode (.edge d) = .ok (.txStd v)) ∧
      (d &&& 0x1CFFFF0000#37 ≠ 0x0400000000#37 → d &&& 0x1C00000000#37 = 0x0400000000#37 →
        v.extractLsb' 16 16 ≠ 0#16 ∧ decode (.edge d) = .ok (.txExt v)) ∧
      (d &&& 0x1A00000000#37 = 0x0800000000#37 → decode (.edge d) = .ok .hold) ∧
      (d &&& 0x1B00000000#37 = 0x0A00000000#37 → decode (.edge d) = .ok .advance) ∧
      (d &&& 0x1B00000000#37 = 0x0B00000000#37 → decode (.edge d) = .ok .finish)) ∧
    (d &&& 0x1000000000#37 = 0x1000000000#37 ∨ d &&& 0x1C00000000#37 = 0#37 ∨
      d &&& 0x1C00000000#37 = 0x0400000000#37 ∨ d &&& 0x1A00000000#37 = 0x0800000000#37 ∨
      d &&& 0x1B00000000#37 = 0x0A00000000#37 ∨ d &&& 0x1B00000000#37 = 0x0B00000000#37)

/-- The model's interface (log 9): a table word placed by withFetchWord is the one that the next step runs, on the registers that
were placed with it. -/
def Obligations.WithFetchWordRunsTheWord : Prop :=
  ∀ (s : State) (nbits w : Nat) (i : Instr), decodeTableWord nbits w = some i →
    ∃ u : State, u.regs = (s.withFetchWord nbits w).regs ∧ u.params = s.params ∧ u.live = true ∧ u.elements = [] ∧
      step (s.withFetchWord nbits w) = exec i u

/-- 30_encoding.md R66: three element codes, a reserved one that the encoder never makes, and a frame that holds it is refused. -/
def Obligations.ReservedElementCodeRefused : Prop :=
  decode (.element 0b00#2) = .ok .bit0 ∧ decode (.element 0b01#2) = .ok .bit1 ∧ decode (.element 0b10#2) = .ok .pause ∧
  elementCode (.bit false) = 0b00#2 ∧ elementCode (.bit true) = 0b01#2 ∧ elementCode .pause = 0b10#2 ∧
  (∀ v : Desc, 0b11#2 ∉ (elements v).map elementCode) ∧
  (∀ s : State, s.input.rst = false → s.live = true → s.regs.busy = true → 0b11#2 ∈ s.elements →
    step s = .refused .reservedElement)

-- ---------------------------------------------------------------- the encoder

/-- 40_encoder.md R76: Extended exactly if a bit above position 15 is set, with the two corner values. -/
def Obligations.ModeReadsBitsAboveFifteen : Prop :=
  (∀ v : Desc, (modeOf v = .extended ↔ v.extractLsb' 16 16 ≠ 0#16) ∧ (modeOf v = .extended ↔ 65536 ≤ v.toNat) ∧
    (modeOf v = .standard ↔ v.toNat < 65536)) ∧
  modeOf 0x0000FFFF#32 = .standard ∧ modeOf 0x00010000#32 = .extended

/-- 40_encoder.md R84: the Standard frame word as the sum of its fields, with the rule's corner cases and example. -/
def Obligations.StandardFrameWord : Prop :=
  (∀ v : Desc, v.toNat < 65536 →
    (encodeFrame v).toNat = 8192 + (if v.toNat % 256 < 64 then 4096 else 0) + 2048 + (v.toNat / 256 % 32) * 64 + v.toNat % 64) ∧
  encodeFrame 0#32 = 0x3800#20 ∧ encodeFrame 0xFFFF#32 = 0x2FFF#20 ∧ encodeFrame 0x100C#32 = 0x3C0C#20

/-- 40_encoder.md R85: the Extended frame word as the sum of its fields, with the rule's corner cases and example. -/
def Obligations.ExtendedFrameWord : Prop :=
  (∀ v : Desc, 65536 ≤ v.toNat →
    (encodeFrame v).toNat = 524288 + (if v.toNat / 256 % 256 < 64 then 262144 else 0) + 131072
      + (v.toNat / 65536 % 32) * 4096 + (v.toNat / 256 % 64) * 64 + v.toNat % 64) ∧
  encodeFrame 0x00010000#32 = 0xE1000#20 ∧ encodeFrame 0x00200000#32 = 0xE0000#20 ∧ encodeFrame 0x01000000#32 = 0xE0000#20 ∧
  encodeFrame 0x80000000#32 = 0xE0000#20 ∧ encodeFrame 0x00FFFFFF#32 = 0xBFFFF#20 ∧ encodeFrame 0xFFFFFFFF#32 = 0xBFFFF#20 ∧
  encodeFrame 0x100C01#32 = 0xF0301#20

/-- 40_encoder.md R80: the second start bit compares the whole command byte with 64, in both modes. -/
def Obligations.SecondStartBitComparesTheWholeByte : Prop :=
  (∀ v : Desc, modeOf v = .standard →
    (encodeFrame v).getLsbD 12 = decide ((commandByte .standard v).toNat < 64)) ∧
  (∀ v : Desc, modeOf v = .extended →
    (encodeFrame v).getLsbD 18 = decide ((commandByte .extended v).toNat < 64)) ∧
  (∀ cc : BitVec 8, ((s2 cc).getLsbD 0 = decide (cc.toNat < 64)) ∧ ((s2 cc).getLsbD 0 = !(cc.getLsbD 7 || cc.getLsbD 6)) ∧
    (cc.toNat < 128 → (s2 cc).getLsbD 0 = !cc.getLsbD 6) ∧ (128 ≤ cc.toNat → cc.toNat < 192 → (s2 cc).getLsbD 0 = false))

/-- 40_encoder.md R79 and R81: S1 and the toggle are 1 in the frame of every descriptor. -/
def Obligations.StartAndToggleBitsAreOne : Prop :=
  ∀ v : Desc,
    (modeOf v = .standard → (encodeFrame v).getLsbD 13 = true ∧ (encodeFrame v).getLsbD 11 = true) ∧
    (modeOf v = .extended → (encodeFrame v).getLsbD 19 = true ∧ (encodeFrame v).getLsbD 17 = true)

/-- 40_encoder.md R87 and R88: 14 bits, or 8 bits, the pause and 12 bits, which last 22 bit-times of two half-slots. -/
def Obligations.ElementSequences : Prop :=
  ∀ v : Desc,
    (modeOf v = .standard →
      (elements v).length = 14 ∧ ∀ k, k < 14 → (elements v)[k]? = some (.bit ((encodeFrame v).getLsbD (13 - k)))) ∧
    (modeOf v = .extended →
      (elements v).length = 21 ∧ (∀ k, k < 8 → (elements v)[k]? = some (.bit ((encodeFrame v).getLsbD (19 - k)))) ∧
      (elements v)[8]? = some .pause ∧
      (∀ k, k < 12 → (elements v)[9 + k]? = some (.bit ((encodeFrame v).getLsbD (11 - k)))) ∧
      (halfSlots v).length = 22 * 2)

/-- 30_encoding.md R62: the ignored bits of a descriptor have no effect on its frame. -/
def Obligations.IgnoredDescriptorBits : Prop :=
  ∀ v w : Desc,
    (modeOf v = .standard → modeOf w = .standard → v &&& 0x1FFF#32 = w &&& 0x1FFF#32 → encodeFrame v = encodeFrame w) ∧
    (modeOf v = .extended → modeOf w = .extended → v &&& 0x1FFF3F#32 = w &&& 0x1FFF3F#32 → encodeFrame v = encodeFrame w)

/-- 40_encoder.md R90: the properties of the encoder, both branches of the second start bit in both modes. -/
def Obligations.EncoderProperties : Prop :=
  (∀ a c : Nat, a < 32 → c < 64 →
    let v := BitVec.ofNat 32 (a * 256 + c)
    modeOf v = .standard ∧ (elements v).length = 14 ∧ (elements v).take 2 = [.bit true, .bit true] ∧
      (encodeFrame v).extractLsb' 6 5 = BitVec.ofNat 5 a ∧ (encodeFrame v).extractLsb' 0 6 = BitVec.ofNat 6 c) ∧
  (∀ a c : Nat, a < 32 → 64 ≤ c → c < 128 → (encodeFrame (BitVec.ofNat 32 (a * 256 + c))).getLsbD 12 = false) ∧
  (∀ a c d : Nat, 1 ≤ a → a < 32 → c < 128 → d < 64 →
    let v := BitVec.ofNat 32 (a * 65536 + c * 256 + d)
    modeOf v = .extended ∧ (encodeFrame v).getLsbD 18 = decide (c < 64) ∧
      (c < 64 → (encodeFrame v).extractLsb' 12 5 = BitVec.ofNat 5 a ∧ (encodeFrame v).extractLsb' 6 6 = BitVec.ofNat 6 c ∧
        (encodeFrame v).extractLsb' 0 6 = BitVec.ofNat 6 d))

/-- 40_encoder.md R91: the frame determines the fields, the map is injective on the rule's domain, and not outside it. -/
def Obligations.FrameDeterminesFields : Prop :=
  (∀ v w : Desc, modeOf v = modeOf w → encodeFrame v = encodeFrame w →
    s2 (commandByte (modeOf v) v) = s2 (commandByte (modeOf w) w) ∧
    sys5 (systemByte (modeOf v) v) = sys5 (systemByte (modeOf w) w) ∧
    cmd6 (commandByte (modeOf v) v) = cmd6 (commandByte (modeOf w) w) ∧
    (modeOf v = .extended → data6 (dataByte v) = data6 (dataByte w)) ∧
    (inInjectiveDomain v → inInjectiveDomain w →
      systemByte (modeOf v) v = systemByte (modeOf w) w ∧ commandByte (modeOf v) v = commandByte (modeOf w) w ∧
      (modeOf v = .extended → dataByte v = dataByte w))) ∧
  (∀ v : Desc, (commandByte (modeOf v) v).toNat < 128 →
    (commandByte (modeOf v) v).toNat
      = (if s2 (commandByte (modeOf v) v) = 1#1 then 0 else 64) + (cmd6 (commandByte (modeOf v) v)).toNat) ∧
  encodeFrame 0x1080#32 = 0x2C00#20 ∧ encodeFrame 0x10C0#32 = 0x2C00#20

-- ---------------------------------------------------------------- levels and the waveform

/-- 41_transmitter.md R97 and R102: the closed form of the level is the entry of the half-slot sequence, which has H(mode) entries. -/
def Obligations.LevelIsTheHalfSlotEntry : Prop :=
  ∀ (m : Mode) (f : FrameWord),
    halfSlotsOf m f = (elementsOf m f).flatMap halves ∧ (halfSlotsOf m f).length = halfSlotCount m ∧
    (∀ h : HalfIdx, h.toNat < halfSlotCount m → (halfSlotsOf m f)[h.toNat]? = some (level m f h)) ∧
    (∀ h : HalfIdx, h.toNat < 28 →
      level .standard f h = (if h.toNat % 2 = 0 then !f.getLsbD (13 - h.toNat / 2) else f.getLsbD (13 - h.toNat / 2))) ∧
    (∀ h : HalfIdx, h.toNat < 16 →
      level .extended f h = (if h.toNat % 2 = 0 then !f.getLsbD (19 - h.toNat / 2) else f.getLsbD (19 - h.toNat / 2))) ∧
    (∀ h : HalfIdx, 16 ≤ h.toNat → h.toNat < 20 → level .extended f h = false) ∧
    (∀ h : HalfIdx, 20 ≤ h.toNat → h.toNat < 44 →
      level .extended f h =
        (if h.toNat % 2 = 0 then !f.getLsbD (11 - (h.toNat - 20) / 2) else f.getLsbD (11 - (h.toNat - 20) / 2)))

/-- 41_transmitter.md R116: one High half-slot for each bit, whatever the descriptor. -/
def Obligations.OneHighHalfSlotPerBit : Prop :=
  ∀ v : Desc,
    (modeOf v = .standard → (halfSlots v).count true = 14 ∧ (halfSlots v).count false = 14) ∧
    (modeOf v = .extended → (halfSlots v).count true = 20 ∧ (halfSlots v).count false = 24)

/-- 41_transmitter.md R113: where the level changes, inside elements, between them, and at the two ends of a frame. -/
def Obligations.TransitionsOfAFrame : Prop :=
  (∀ b : Bool, transitions (halves (.bit b)) = 1) ∧ transitions (halves .pause) = 0 ∧
  (∀ b c : Bool, transitions (halves (.bit b) ++ halves (.bit c)) = 2 + (if b = c then 1 else 0)) ∧
  (∀ b : Bool, transitions (halves (.bit b) ++ halves .pause) = 1 + (if b then 1 else 0) ∧
    transitions (halves .pause ++ halves (.bit b)) = 1 + (if b then 0 else 1)) ∧
  (∀ (s : State) (v : Desc), RegsInv s.params s.regs → s.regs.busy = false →
    (acceptRegs (modeOf v) (encodeFrame v)).irOut = s.regs.irOut) ∧
  (∀ s : State, RegsInv s.params s.regs → s.regs.busy = true → hlast s.regs = true →
    ∃ t, exec .finish s = .next t ∧ (t.regs.irOut ≠ s.regs.irOut ↔ s.regs.frame.getLsbD 0 = true)) ∧
  transitions (halfSlots 0x100C#32) = 24 ∧ transitions (halfSlots 0x100C01#32) = 35

/-- 41_transmitter.md R115: the levels of a frame's busy cycles determine the frame, and on the injective domain the fields. -/
def Obligations.WaveformRoundTrip : Prop :=
  ∀ (p : Params) (v w : Desc),
    (stretch p (halfSlots v)).length = halfSlotCount (modeOf v) * p.P ∧
    (modeOf v = .standard → ∀ k, k < 14 → (halfSlots v)[2 * k + 1]? = some ((encodeFrame v).getLsbD (13 - k))) ∧
    (modeOf v = .extended →
      (∀ k, k < 8 → (halfSlots v)[2 * k + 1]? = some ((encodeFrame v).getLsbD (19 - k))) ∧
      (∀ k, 16 ≤ k → k < 20 → (halfSlots v)[k]? = some false) ∧
      (∀ k, k < 12 → (halfSlots v)[2 * k + 21]? = some ((encodeFrame v).getLsbD (11 - k)))) ∧
    (stretch p (halfSlots v) = stretch p (halfSlots w) →
      modeOf v = modeOf w ∧ encodeFrame v = encodeFrame w ∧
      (inInjectiveDomain v → inInjectiveDomain w →
        systemByte (modeOf v) v = systemByte (modeOf w) w ∧ commandByte (modeOf v) v = commandByte (modeOf w) w ∧
        (modeOf v = .extended → dataByte v = dataByte w)))

-- ---------------------------------------------------------------- parameters

/-- 00_scope.md R10: the conformance bound, and the reference configuration meets it exactly. -/
def Obligations.ConformanceBound : Prop :=
  (∀ p : Params, 0 < p.fClk →
    (p.conforming = true ↔ |(p.P : ℚ) / (p.fClk : ℚ) - 889 / 1000000| ≤ 10 / 1000000)) ∧
  (∀ p : Params, 1 ≤ p.P) ∧
  Params.reference.P = 889 ∧ Params.reference.fClk = 1000000 ∧ Params.reference.conforming = true ∧
  ((Params.reference.P : ℚ) / (Params.reference.fClk : ℚ) = 889 / 1000000)

/-- 00_scope.md R14: the constants that follow from the layouts, and the durations of the reference configuration. -/
def Obligations.FrameConstants : Prop :=
  (∀ f : FrameWord, (elementsOf .standard f).length = 14 ∧ (elementsOf .extended f).length = 21 ∧
    (elementsOf .extended f).count .pause = 1 ∧ (elementsOf .standard f).count .pause = 0) ∧
  halfSlotCount .standard = 14 * 2 ∧ halfSlotCount .extended = 8 * 2 + 4 + 12 * 2 ∧
  halfSlotCount .standard * Params.reference.P = 24892 ∧ halfSlotCount .extended * Params.reference.P = 39116

/-- 00_scope.md R15: the counters' widths hold their ranges, and neither counter wraps. -/
def Obligations.CountersNeverWrap : Prop :=
  (∀ p : Params, p.cw = max 1 (Nat.clog 2 p.P) ∧ p.P - 1 < 2 ^ p.cw) ∧ Params.reference.cw = 10 ∧
  (∀ m : Mode, halfSlotCount m ≤ 44) ∧ (∀ b : Block, b.regs.c < 2 ^ b.params.cw) ∧
  (∀ s : State, RegsInv s.params s.regs → s.regs.busy = true →
    (cdone s.params s.regs = false → incC s.params s.regs.c = s.regs.c + 1) ∧
    (hlast s.regs = false → (incH s.regs.h).toNat = s.regs.h.toNat + 1))

-- ---------------------------------------------------------------- the instructions

/-- 41_transmitter.md R104, 70_reset_and_hazards.md R133: an edge with `rst = 1` performs RESET in every state, whatever the other
inputs, and RESET leaves exactly the reset values. -/
def Obligations.ResetInEveryState : Prop :=
  (∀ s : State, ∃ t, exec .reset s = .next t ∧
    t.regs = { busy := false, mode := .standard, frame := 0#20, h := 0#6, c := 0, irOut := false }) ∧
  (∀ s : State, s.input.rst = true →
    decode (.edge (stepWord s.params s.regs s.input)) = .ok .reset ∧
    ∃ t, step s = .next t ∧
      t.regs = { busy := false, mode := .standard, frame := 0#20, h := 0#6, c := 0, irOut := false })

/-- 41_transmitter.md R103: when idle without a request no register changes, and the line stays Low. -/
def Obligations.NopChangesNoRegister : Prop :=
  ∀ s : State,
    (∃ t, exec .nop s = .next t ∧ t.regs = s.regs) ∧
    (s.input.rst = false → s.regs.busy = false → s.input.start = false →
      decode (.edge (stepWord s.params s.regs s.input)) = .ok .nop ∧
      (s.live = true → RegsInv s.params s.regs → ∃ t, step s = .next t ∧ t.regs = s.regs ∧ t.regs.irOut = false))

/-- 41_transmitter.md R105: an accept loads the mode and the frame of `desc`, starts at half-slot 0, cycle 0, with the line Low, and
no later step of the frame changes what was loaded. -/
def Obligations.AcceptStartsTheFrame : Prop :=
  (∀ (s : State) (v : Desc),
    (v.extractLsb' 16 16 = 0#16 → ∃ t, exec (.txStd v) s = .next t ∧
      t.regs = { busy := true, mode := modeOf v, frame := encodeFrame v, h := 0#6, c := 0, irOut := false }) ∧
    (v.extractLsb' 16 16 ≠ 0#16 → ∃ t, exec (.txExt v) s = .next t ∧
      t.regs = { busy := true, mode := modeOf v, frame := encodeFrame v, h := 0#6, c := 0, irOut := false })) ∧
  (∀ v : Desc, level (modeOf v) (encodeFrame v) 0#6 = false) ∧
  (∀ s : State, s.input.rst = false → s.regs.busy = false → s.input.start = true →
    decode (.edge (stepWord s.params s.regs s.input))
      = .ok (if s.input.desc.extractLsb' 16 16 = 0#16 then .txStd s.input.desc else .txExt s.input.desc)) ∧
  (∀ s t : State, step s = .next t → s.regs.busy = true → s.input.rst = false →
    t.regs.mode = s.regs.mode ∧ t.regs.frame = s.regs.frame)

/-- 41_transmitter.md R107: HOLD counts one cycle and changes nothing else. -/
def Obligations.HoldCountsOneCycle : Prop :=
  ∀ s : State, s.regs.c < s.params.P → s.regs.c ≠ s.params.P - 1 →
    (∃ t, exec .hold s = .next t ∧ t.regs = { s.regs with c := s.regs.c + 1 }) ∧
    s.regs.c + 1 ≤ s.params.P - 1 ∧
    (s.input.rst = false → s.regs.busy = true → decode (.edge (stepWord s.params s.regs s.input)) = .ok .hold)

/-- 41_transmitter.md R108: ADVANCE enters the next half-slot with its level, and with P = 1 every busy edge is an ADVANCE or a
FINISH. -/
def Obligations.AdvanceEntersTheNextHalfSlot : Prop :=
  (∀ s : State, s.regs.h.toNat < halfSlotCount s.regs.mode → s.regs.h.toNat ≠ halfSlotCount s.regs.mode - 1 →
    ∃ (h' : HalfIdx) (v : Level),
      h'.toNat = s.regs.h.toNat + 1 ∧ h'.toNat ≤ halfSlotCount s.regs.mode - 1 ∧ h'.toNat ≤ 43 ∧
      v = level s.regs.mode s.regs.frame h' ∧ (halfSlotsOf s.regs.mode s.regs.frame)[s.regs.h.toNat + 1]? = some v ∧
      (∃ t, exec .advance s = .next t ∧ t.regs = { s.regs with h := h', c := 0, irOut := v }) ∧
      (s.input.rst = false → s.regs.busy = true → s.regs.c = s.params.P - 1 →
        decode (.edge (stepWord s.params s.regs s.input)) = .ok .advance)) ∧
  (∀ s : State, s.params.P = 1 → RegsInv s.params s.regs → s.regs.busy = true → s.input.rst = false →
    decode (.edge (stepWord s.params s.regs s.input)) = .ok .advance ∨
    decode (.edge (stepWord s.params s.regs s.input)) = .ok .finish)

/-- 41_transmitter.md R109: FINISH clears `busy`, `h` and `c` and drives Low; `mode` and `frame` keep their values. -/
def Obligations.FinishEndsTheFrameLow : Prop :=
  ∀ s : State,
    (∃ t, exec .finish s = .next t ∧ t.regs = { s.regs with busy := false, h := 0#6, c := 0, irOut := false }) ∧
    (s.input.rst = false → s.regs.busy = true → s.regs.c = s.params.P - 1 →
      s.regs.h.toNat = halfSlotCount s.regs.mode - 1 → decode (.edge (stepWord s.params s.regs s.input)) = .ok .finish)

/-- 41_transmitter.md R96: each entry of an element's halves is one half-slot of P cycles on the line. That an element is one step,
with its levels in `line`, is the model's choice (log 6, log 7). -/
def Obligations.HalvesLastPCyclesEach : Prop :=
  (∀ b : Bool, halves (.bit b) = [!b, b]) ∧ halves .pause = [false, false, false, false] ∧
  ∀ s : State,
    (∃ t, exec .bit0 s = .next t ∧ t.line = List.replicate s.params.P true ++ List.replicate s.params.P false) ∧
    (∃ t, exec .bit1 s = .next t ∧ t.line = List.replicate s.params.P false ++ List.replicate s.params.P true) ∧
    (∃ t, exec .pause s = .next t ∧ t.line = List.replicate (4 * s.params.P) false)

/-- 41_transmitter.md R98 and R99: the registers, the cycle and the line after a bit. That the step starts at the next even half-slot
and stops in the last cycle of the bit is the model's choice (log 6), as is the field `line` (log 7). -/
def Obligations.BitElementsDriveTwoHalfSlots : Prop :=
  ∀ s : State,
    (s.regs.h.toNat % 2 = 0 →
      (∃ t, exec .bit0 s = .next t ∧
        t.regs = { s.regs with h := s.regs.h + 1#6, c := s.params.P - 1, irOut := false } ∧
        t.cycle = s.cycle + (2 * s.params.P - 1 - s.regs.c) ∧
        t.line = List.replicate s.params.P true ++ List.replicate s.params.P false) ∧
      (∃ t, exec .bit1 s = .next t ∧
        t.regs = { s.regs with h := s.regs.h + 1#6, c := s.params.P - 1, irOut := true } ∧
        t.cycle = s.cycle + (2 * s.params.P - 1 - s.regs.c) ∧
        t.line = List.replicate s.params.P false ++ List.replicate s.params.P true)) ∧
    (s.regs.h.toNat % 2 = 1 → s.regs.h.toNat < 62 →
      (∃ t, exec .bit0 s = .next t ∧
        t.regs = { s.regs with h := s.regs.h + 2#6, c := s.params.P - 1, irOut := false } ∧
        t.cycle = s.cycle + (3 * s.params.P - 1 - s.regs.c) ∧
        t.line = List.replicate s.params.P true ++ List.replicate s.params.P false) ∧
      (∃ t, exec .bit1 s = .next t ∧
        t.regs = { s.regs with h := s.regs.h + 2#6, c := s.params.P - 1, irOut := true } ∧
        t.cycle = s.cycle + (3 * s.params.P - 1 - s.regs.c) ∧
        t.line = List.replicate s.params.P false ++ List.replicate s.params.P true))

/-- 41_transmitter.md R100: the registers, the cycle and the line after the pause, Low throughout. Where the step starts and stops is
the model's choice (log 6), as is the field `line` (log 7). -/
def Obligations.PauseDrivesFourLowHalfSlots : Prop :=
  ∀ s : State,
    (s.regs.h.toNat % 2 = 0 → s.regs.h.toNat < 62 →
      (∃ t, exec .pause s = .next t ∧
        t.regs = { s.regs with h := s.regs.h + 3#6, c := s.params.P - 1, irOut := false } ∧
        t.cycle = s.cycle + (4 * s.params.P - 1 - s.regs.c) ∧
        t.line = List.replicate (4 * s.params.P) false)) ∧
    (s.regs.h.toNat % 2 = 1 → s.regs.h.toNat < 60 →
      (∃ t, exec .pause s = .next t ∧
        t.regs = { s.regs with h := s.regs.h + 4#6, c := s.params.P - 1, irOut := false } ∧
        t.cycle = s.cycle + (5 * s.params.P - 1 - s.regs.c) ∧
        t.line = List.replicate (4 * s.params.P) false))

-- ---------------------------------------------------------------- the machine

/-- 41_transmitter.md R111: the step through the decode word is the rule's listing, total and without another outcome. The premise
leaves out the steps that send a whole element or meet a reserved element code (log 6). -/
def Obligations.StepIsTheListing : Prop :=
  ∀ s : State, s.atEdge → s.regs.c < s.params.P →
    ∃ t, step s = .next t ∧ t.regs = listedStep s.params s.regs s.input

/-- The model's own fields (log 1, log 2, log 3, log 4, log 6, log 7) after each instruction and after a clock edge: the frame of
every instruction beside the six registers. -/
def Obligations.ModelFieldsAfterAnInstruction : Prop :=
  (∀ (i : Instr) (s : State), ∃ t, exec i s = .next t ∧ t.params = s.params ∧ t.script = s.script ∧
    (i = .reset → t.live = true ∧ t.elements = []) ∧
    (i ≠ .reset → t.live = s.live ∧ t.elements = s.elements) ∧
    (i ≠ .bit0 → i ≠ .bit1 → i ≠ .pause → t.cycle = s.cycle + 1 ∧ t.line = [t.regs.irOut]) ∧
    (i = .bit0 ∨ i = .bit1 ∨ i = .pause →
      t.regs.busy = s.regs.busy ∧ t.regs.mode = s.regs.mode ∧ t.regs.frame = s.regs.frame)) ∧
  (∀ s : State, s.atEdge → ∃ t, step s = .next t ∧ t.params = s.params ∧ t.live = true ∧ t.script = s.presented.2 ∧
    t.cycle = s.cycle + 1 ∧ t.line = [t.regs.irOut] ∧ t.elements = if s.input.rst then [] else s.elements)

/-- 10_state.md R43: before the first RESET edge every step but a RESET is refused, and the RESET gives the reset values. -/
def Obligations.BeforeTheFirstResetRefused : Prop :=
  ∀ s : State, s.live = false →
    (s.input.rst = false → step s = .refused .beforeFirstReset) ∧
    (s.input.rst = true → ∃ t, step s = .next t ∧ t.live = true ∧ t.regs = Regs.reset)

/-- 10_state.md R44: the state after reset has the reset values in every register. -/
def Obligations.ResetStateHasTheResetValues : Prop :=
  State.reset.regs = { busy := false, mode := .standard, frame := 0x00000#20, h := 0#6, c := 0, irOut := false } ∧
  State.reset.outputs.irOut = false ∧ State.reset.outputs.busy = false

/-- The invariant of the whole machine (10_state.md R42 and log 6) and the constant bits (R37) hold after reset. -/
def Obligations.InvHoldsAtReset : Prop :=
  Inv State.reset ∧ constantBits State.reset.regs

/-- 10_state.md R42: (a) to (d) hold in every state reached from a RESET edge, and every clock edge keeps them, from any state that
has them. -/
def Obligations.ClockEdgesKeepTheInvariants : Prop :=
  (∀ (n : Nat) (s t : State), s.input.rst = true → run (n + 1) s = .next t → RegsInv t.params t.regs) ∧
  (∀ s t : State, s.atEdge → RegsInv s.params s.regs → step s = .next t → RegsInv t.params t.regs)

/-- The invariant of the whole machine (R42 and log 6): every step keeps it, whatever model frame the host follows. -/
def Obligations.EveryStepKeepsInv : Prop :=
  ∀ s t : State, Inv s → step s = .next t → Inv t

/-- 10_state.md R37: the start bit S1 and the toggle are 1 in every frame being sent; no step changes that. -/
def Obligations.ConstantBitsStayOne : Prop :=
  ∀ s t : State, constantBits s.regs → step s = .next t → constantBits t.regs

/-- 60_exceptions.md R118: a step from a state reached from a RESET edge has a next state, as has one from any state that meets the
invariant; states before the first reset are refused. -/
def Obligations.NoReachedStepStops : Prop :=
  (∀ (n : Nat) (s t : State), s.input.rst = true → run (n + 1) s = .next t → ∃ u, step t = .next u) ∧
  (∀ s : State, Inv s → ∃ t, step s = .next t) ∧
  (∀ s : State, s.live = false → s.input.rst = false → step s = .refused .beforeFirstReset)

/-- 10_state.md R31: `busy` is set by an accept alone and cleared by FINISH or RESET alone, and each of them does so. -/
def Obligations.BusySetAndCleared : Prop :=
  ∀ s t : State, step s = .next t →
    (s.regs.busy = false → t.regs.busy = true → s.input.rst = false ∧ s.input.start = true) ∧
    (s.regs.busy = true → t.regs.busy = false →
      s.input.rst = true ∨ (cdone s.params s.regs = true ∧ hlast s.regs = true)) ∧
    (s.regs.busy = false → s.input.rst = false → s.input.start = true → t.regs.busy = true) ∧
    (s.input.rst = true → t.regs.busy = false) ∧
    (s.regs.busy = true → cdone s.params s.regs = true → hlast s.regs = true → t.regs.busy = false)

/-- 10_state.md R32 and R33: `mode` and `frame` are written at an accept, with ModeOf and Encode of `desc`, and at RESET, with 0. -/
def Obligations.ModeAndFrameWritten : Prop :=
  ∀ s t : State, step s = .next t →
    (s.input.rst = true → t.regs.mode = .standard ∧ t.regs.frame = 0#20) ∧
    (s.input.rst = false → s.regs.busy = false → s.input.start = true →
      t.regs.mode = modeOf s.input.desc ∧ t.regs.frame = encodeFrame s.input.desc) ∧
    (s.input.rst = false → (s.regs.busy = true ∨ s.input.start = false) →
      t.regs.mode = s.regs.mode ∧ t.regs.frame = s.regs.frame)

/-- 10_state.md R34: how the half-slot index moves, one half-slot at a time and never past 43. -/
def Obligations.NoStepSkipsAHalfSlot : Prop :=
  ∀ s : State, s.atEdge → RegsInv s.params s.regs →
    ∃ t, step s = .next t ∧ t.regs.h.toNat ≤ 43 ∧
      (t.regs.busy = true → t.regs.h.toNat < halfSlotCount t.regs.mode) ∧
      (s.input.rst = true ∨ s.regs.busy = false ∨ t.regs.busy = false → t.regs.h = 0#6) ∧
      (s.input.rst = false → s.regs.busy = true → cdone s.params s.regs = false → t.regs.h = s.regs.h) ∧
      (s.input.rst = false → s.regs.busy = true → cdone s.params s.regs = true → hlast s.regs = false →
        t.regs.h.toNat = s.regs.h.toNat + 1) ∧
      (s.input.rst = false → s.regs.busy = true → cdone s.params s.regs = true → hlast s.regs = true → t.regs.h = 0#6)

/-- 41_transmitter.md R110: at a clock edge with `busy = 1` and `rst = 0` the step is the same with `start = 1` as with `start = 0`. -/
def Obligations.StartIgnoredWhileBusy : Prop :=
  ∀ (s : State) (v : Desc) (rest : List Stmt), s.live = true → s.elements = [] → s.regs.busy = true →
    ∃ t, step { s with script := .drive ⟨false, true, v⟩ :: rest } = .next t ∧
      step { s with script := .drive ⟨false, false, v⟩ :: rest } = .next t ∧ t.script = rest

/-- 20_memory.md R52: `desc` changes nothing but the two combinational outputs while `start = 0` or `busy = 1`, `start` changes
nothing while `busy = 1`, and reading the outputs is no step. -/
def Obligations.DescHasNoEffectWithoutAccept : Prop :=
  ∀ (s : State) (r b : Bool) (v w : Desc) (rest : List Stmt), s.live = true → s.elements = [] →
    (s.regs.busy = true ∨ b = false ∨ r = true →
      ∃ t, step { s with script := .drive ⟨r, b, v⟩ :: rest } = .next t ∧
        step { s with script := .drive ⟨r, b, w⟩ :: rest } = .next t) ∧
    (s.regs.busy = true →
      ∃ t, step { s with script := .drive ⟨r, true, v⟩ :: rest } = .next t ∧
        step { s with script := .drive ⟨r, false, v⟩ :: rest } = .next t) ∧
    ({ s with script := .drive ⟨r, b, v⟩ :: rest } : State).outputs =
      { irOut := s.regs.irOut, busy := s.regs.busy, encExt := modeBit (modeOf v), encWord := encodeFrame v }

/-- 41_transmitter.md R112: what the registers hold in every cycle of a frame, for every P, and when the next accept can happen. -/
def Obligations.FrameTiming : Prop :=
  ∀ (s : State) (v : Desc) (ins : List Input), s.ready = true → s.script = .tx v :: ins.map Stmt.drive →
    (∀ i ∈ ins, i.rst = false) →
    (∀ n, n ≤ ins.length → n < halfSlotCount (modeOf v) * s.params.P →
      ∃ t, run (n + 1) s = .next t ∧ t.regs.busy = true ∧ t.regs.mode = modeOf v ∧ t.regs.frame = encodeFrame v ∧
        t.regs.h.toNat = n / s.params.P ∧ t.regs.c = n % s.params.P ∧
        (halfSlots v)[n / s.params.P]? = some t.regs.irOut) ∧
    (halfSlotCount (modeOf v) * s.params.P ≤ ins.length →
      ∃ t, run (halfSlotCount (modeOf v) * s.params.P + 1) s = .next t ∧ t.regs.busy = false ∧ t.regs.irOut = false ∧
        ∀ i, ins[halfSlotCount (modeOf v) * s.params.P]? = some i → i.start = true →
          ∃ u, run (halfSlotCount (modeOf v) * s.params.P + 2) s = .next u ∧ u.regs.busy = true ∧ u.regs.irOut = false) ∧
    halfSlotCount .standard * 889 = 24892 ∧ halfSlotCount .extended * 889 = 39116

/-- 41_transmitter.md R114: two accepts of the same descriptor from any two idle states give the same line and the same `busy`,
cycle by cycle, whatever else the host does. -/
def Obligations.EqualDescriptorsEqualWaveforms : Prop :=
  ∀ (s s' : State) (v : Desc) (ins ins' : List Input), s.ready = true → s'.ready = true → s.params = s'.params →
    s.script = .tx v :: ins.map Stmt.drive → s'.script = .tx v :: ins'.map Stmt.drive →
    (∀ i ∈ ins, i.rst = false) → (∀ i ∈ ins', i.rst = false) →
    ∀ n, n ≤ ins.length → n ≤ ins'.length → n ≤ halfSlotCount (modeOf v) * s.params.P →
      ∃ t t', run (n + 1) s = .next t ∧ run (n + 1) s' = .next t' ∧ t.regs.irOut = t'.regs.irOut ∧
        t.regs.busy = t'.regs.busy

/-- 10_state.md R41: no port shows `mode`, `frame`, `h` or `c`; what they hold while the block is idle shows on no output after any
number of steps, and the next accept overwrites all four. -/
def Obligations.IdleRegistersAreHidden : Prop :=
  ∀ (s : State) (m : Mode) (f : FrameWord) (h : HalfIdx) (c : Nat),
    let s' : State := s.withRegs { s.regs with mode := m, frame := f, h := h, c := c }
    s'.outputs = s.outputs ∧
    (s.regs.busy = false →
      ∀ (n : Nat) (t : State), run n s = .next t → ∃ t', run n s' = .next t' ∧ t'.outputs = t.outputs) ∧
    (s.regs.busy = false → s.input.rst = false → s.input.start = true → step s' = step s)

/-- 41_transmitter.md R93 and R97: playing a frame's elements one after another gives, cycle by cycle, its half-slot sequence, and
ends in the registers that the clock edges reach; one more edge is the FINISH. That the elements run as steps is the model's choice
(log 6), as is the field `line` that the waveform is read from (log 7). -/
def Obligations.ElementLevelPlaysTheFrame : Prop :=
  ∀ (s t : State) (v d : Desc) (rest : List Stmt), s.ready = true → s.script = .tx v :: .waitIdle d :: rest →
    step s = .next t →
    let u : State := { t with elements := (elements v).map elementCode }
    wave (elements v).length u = stretch s.params (halfSlots v) ∧
    ∃ w x y, run (elements v).length u = .next w ∧ run (halfSlotCount (modeOf v) * s.params.P - 1) t = .next x ∧
      w.regs = x.regs ∧ w.cycle = x.cycle ∧ w.elements = [] ∧
      step w = .next y ∧ y.regs.busy = false ∧ y.regs.irOut = false

/-- 41_transmitter.md R98 to R100: in every state, one element step is exactly its clock edges, in registers, cycles, inputs and
levels. That it is one step is the model's choice (log 6), and so are the fields it reads and records the levels in (log 7). -/
def Obligations.ElementStepIsItsClockEdges : Prop :=
  ∀ (s s' : State) (i : Instr), s.live = true → 0b11#2 ∉ s.elements → s.playedElement = some (i, s') →
    ∃ t u : State, step s = .next t ∧
      run (t.line.length - (if s.regs.h.getLsbD 0 then 0 else 1)) { s with elements := [] } = .next u ∧
      u.regs = t.regs ∧ u.cycle = t.cycle ∧ u.script = t.script ∧ u.params = t.params ∧ u.live = t.live ∧
      t.line = (if s.regs.h.getLsbD 0 then [] else [s.regs.irOut])
        ++ wave (t.line.length - (if s.regs.h.getLsbD 0 then 0 else 1)) { s with elements := [] }

-- ---------------------------------------------------------------- the host and the ports

/-- 30_encoding.md R72: the input vectors that a script presents. One value of `desc` for all cycles of a statement is log 3. -/
def Obligations.ScriptPresentsItsStatements : Prop :=
  ∀ (rest : List Stmt) (busy : Bool) (v d : Desc) (n : Nat),
    present (.reset :: rest) busy = some (⟨true, false, 0#32⟩, rest) ∧
    present (.nop d :: rest) busy = some (⟨false, false, d⟩, rest) ∧
    present (.tx v :: rest) busy = some (⟨false, true, v⟩, rest) ∧
    presentN n (.cycles n d :: rest) busy = some (List.replicate n ⟨false, false, d⟩, .cycles 0 d :: rest) ∧
    present (.cycles 0 d :: rest) busy = present rest busy ∧
    presentN n (.waitIdle d :: rest) true = some (List.replicate n ⟨false, false, d⟩, .waitIdle d :: rest) ∧
    present (.waitIdle d :: rest) true = some (⟨false, false, d⟩, .waitIdle d :: rest) ∧
    present (.waitIdle d :: rest) false = present rest false

/-- 10_state.md R25 to R28: the four outputs in a cycle. -/
def Obligations.OutputsOfACycle : Prop :=
  ∀ s : State,
    s.outputs.irOut = s.regs.irOut ∧ s.outputs.busy = s.regs.busy ∧
    s.outputs.encExt = decide (65536 ≤ s.input.desc.toNat) ∧
    s.outputs.encWord =
      (if 65536 ≤ s.input.desc.toNat then assembleExt s.input.desc else (assembleStd s.input.desc).setWidth 20)

/-- 70_reset_and_hazards.md R138 and R139: a serialised request is accepted; `busy` still reads 0 in its cycle and 1 in the next. -/
def Obligations.SerialisedRequestIsAccepted : Prop :=
  ∀ s : State, s.live = true → s.input.rst = false → s.input.start = true → s.serialised = true →
    s.outputs.busy = false ∧
    ∃ t, step s = .next t ∧ t.outputs.busy = true ∧ t.regs.mode = modeOf s.input.desc ∧
      t.regs.frame = encodeFrame s.input.desc ∧ t.regs.h = 0#6 ∧ t.regs.c = 0
end

