-- ==== Sys2Proof/Laws/Decode.lean ====
section
/-!
SUPPORT. The bits of the step word, each row of the step table as a test of those bits, and what the decoder reads from a clock edge.
-/

namespace Sys2Proof
open Machine

section StepWordBits
variable (p : Params) (r : Regs) (i : Input)

theorem stepWord_rst : (stepWord p r i).getLsbD 36 = i.rst := by
  unfold stepWord
  simp only [BitVec.getLsbD_append, BitVec.getLsbD_ofBool]
  rfl

theorem stepWord_busy : (stepWord p r i).getLsbD 35 = r.busy := by
  unfold stepWord
  simp only [BitVec.getLsbD_append, BitVec.getLsbD_ofBool]
  rfl

theorem stepWord_start : (stepWord p r i).getLsbD 34 = i.start := by
  unfold stepWord
  simp only [BitVec.getLsbD_append, BitVec.getLsbD_ofBool]
  rfl

theorem stepWord_cdone : (stepWord p r i).getLsbD 33 = cdone p r := by
  unfold stepWord
  simp only [BitVec.getLsbD_append, BitVec.getLsbD_ofBool]
  rfl

theorem stepWord_hlast : (stepWord p r i).getLsbD 32 = hlast r := by
  unfold stepWord
  simp only [BitVec.getLsbD_append, BitVec.getLsbD_ofBool]
  rfl

theorem stepWord_desc : StepWord.desc (stepWord p r i) = i.desc := by
  apply BitVec.eq_of_getLsbD_eq
  intro k hk
  unfold StepWord.desc stepWord
  simp only [BitVec.getLsbD_setWidth, BitVec.getLsbD_append, hk, decide_true, Bool.true_and, if_true]

end StepWordBits

section Rows
variable (d : StepWord)

theorem masked_eq_iff (mask value : StepWord) :
    ((d &&& mask) == value) = true ↔ ∀ k, k < 37 → (d.getLsbD k && mask.getLsbD k) = value.getLsbD k := by
  rw [beq_iff_eq]
  constructor
  · intro h k _
    rw [← h, BitVec.getLsbD_and]
  · intro h
    exact BitVec.eq_of_getLsbD_eq fun k hk => by rw [BitVec.getLsbD_and, h k hk]

theorem row_reset : ((d &&& 0x1000000000#37) == 0x1000000000#37) = (d.getLsbD 36) := by
  rw [Bool.eq_iff_iff, masked_eq_iff]
  constructor
  · intro h
    have h36 := h 36 (by decide)
    simp_all
  · intro h k hk
    interval_cases k <;> simp_all

theorem row_nop : ((d &&& 0x1C00000000#37) == 0x0000000000#37) = (!d.getLsbD 36 && !d.getLsbD 35 && !d.getLsbD 34) := by
  rw [Bool.eq_iff_iff, masked_eq_iff]
  constructor
  · intro h
    have h36 := h 36 (by decide)
    have h35 := h 35 (by decide)
    have h34 := h 34 (by decide)
    simp_all
  · intro h k hk
    simp only [Bool.and_eq_true, Bool.not_eq_true'] at h
    interval_cases k <;> simp_all

theorem row_txExt : ((d &&& 0x1C00000000#37) == 0x0400000000#37) = (!d.getLsbD 36 && !d.getLsbD 35 && d.getLsbD 34) := by
  rw [Bool.eq_iff_iff, masked_eq_iff]
  constructor
  · intro h
    have h36 := h 36 (by decide)
    have h35 := h 35 (by decide)
    have h34 := h 34 (by decide)
    simp_all
  · intro h k hk
    simp only [Bool.and_eq_true, Bool.not_eq_true'] at h
    interval_cases k <;> simp_all

theorem row_hold : ((d &&& 0x1A00000000#37) == 0x0800000000#37) = (!d.getLsbD 36 && d.getLsbD 35 && !d.getLsbD 33) := by
  rw [Bool.eq_iff_iff, masked_eq_iff]
  constructor
  · intro h
    have h36 := h 36 (by decide)
    have h35 := h 35 (by decide)
    have h33 := h 33 (by decide)
    simp_all
  · intro h k hk
    simp only [Bool.and_eq_true, Bool.not_eq_true'] at h
    interval_cases k <;> simp_all

theorem row_advance : ((d &&& 0x1B00000000#37) == 0x0A00000000#37) = (!d.getLsbD 36 && d.getLsbD 35 && d.getLsbD 33 && !d.getLsbD 32) := by
  rw [Bool.eq_iff_iff, masked_eq_iff]
  constructor
  · intro h
    have h36 := h 36 (by decide)
    have h35 := h 35 (by decide)
    have h33 := h 33 (by decide)
    have h32 := h 32 (by decide)
    simp_all
  · intro h k hk
    simp only [Bool.and_eq_true, Bool.not_eq_true'] at h
    interval_cases k <;> simp_all

theorem row_finish : ((d &&& 0x1B00000000#37) == 0x0B00000000#37) = (!d.getLsbD 36 && d.getLsbD 35 && d.getLsbD 33 && d.getLsbD 32) := by
  rw [Bool.eq_iff_iff, masked_eq_iff]
  constructor
  · intro h
    have h36 := h 36 (by decide)
    have h35 := h 35 (by decide)
    have h33 := h 33 (by decide)
    have h32 := h 32 (by decide)
    simp_all
  · intro h k hk
    simp only [Bool.and_eq_true, Bool.not_eq_true'] at h
    interval_cases k <;> simp_all

theorem upper_half_zero (v : Desc) : (v.extractLsb' 16 16 == 0#16) = true ↔ ∀ k, 16 ≤ k → k < 32 → v.getLsbD k = false := by
  rw [beq_iff_eq]
  constructor
  · intro h k hk hk'
    have := congrArg (fun x : BitVec 16 => x.getLsbD (k - 16)) h
    simpa [show k - 16 < 16 by omega, show 16 + (k - 16) = k by omega] using this
  · intro h
    refine BitVec.eq_of_getLsbD_eq fun k hk => ?_
    simp [hk, h (16 + k) (by omega) (by omega)]

theorem row_txStd : ((d &&& 0x1CFFFF0000#37) == 0x0400000000#37)
    = (!d.getLsbD 36 && !d.getLsbD 35 && d.getLsbD 34 && (StepWord.desc d).extractLsb' 16 16 == 0#16) := by
  rw [Bool.eq_iff_iff, masked_eq_iff, Bool.and_eq_true, upper_half_zero]
  constructor
  · intro h
    have h36 := h 36 (by decide)
    have h35 := h 35 (by decide)
    have h34 := h 34 (by decide)
    refine ⟨by simp_all, fun k hk hk' => ?_⟩
    have := h k (by omega)
    simp only [StepWord.desc, BitVec.getLsbD_setWidth, hk', decide_true, Bool.true_and]
    interval_cases k <;> simpa using this
  · rintro ⟨h, h'⟩ k hk
    simp only [StepWord.desc, BitVec.getLsbD_setWidth] at h'
    simp only [Bool.and_eq_true, Bool.not_eq_true'] at h
    by_cases hm : 16 ≤ k ∧ k < 32
    · have := h' k hm.1 hm.2
      obtain ⟨h1, h2⟩ := hm
      interval_cases k <;> simp_all
    · interval_cases k <;> simp_all

/-- The decoder in terms of the bits of the step word. -/
theorem decodeStep_eq : decodeStep d = .ok (
    if d.getLsbD 36 then .reset
    else if d.getLsbD 35 then
      if d.getLsbD 33 then (if d.getLsbD 32 then .finish else .advance) else .hold
    else if d.getLsbD 34 then
      if (StepWord.desc d).extractLsb' 16 16 == 0#16 then .txStd (StepWord.desc d) else .txExt (StepWord.desc d)
    else .nop) := by
  have e : ∀ v : Desc, (v.extractLsb' 16 16 != 0#16) = !(v.extractLsb' 16 16 == 0#16) := fun _ => rfl
  unfold decodeStep stepTable
  simp only [List.find?, StepRow.applies, row_reset, row_nop, row_txStd, row_txExt, row_hold, row_advance, row_finish, e]
  generalize ((StepWord.desc d).extractLsb' 16 16 == 0#16) = z
  cases d.getLsbD 36 <;> cases d.getLsbD 35 <;> cases d.getLsbD 34 <;> cases d.getLsbD 33 <;> cases d.getLsbD 32 <;>
    cases z <;> rfl

end Rows

/-- What a clock edge runs, by the registers and the presented input. -/
def edgeInstr (p : Params) (r : Regs) (i : Input) : Instr :=
  if i.rst then .reset
  else if r.busy then
    if cdone p r then (if hlast r then .finish else .advance) else .hold
  else if i.start then
    if i.desc.extractLsb' 16 16 == 0#16 then .txStd i.desc else .txExt i.desc
  else .nop

theorem decode_stepWord (p : Params) (r : Regs) (i : Input) : decode (.edge (stepWord p r i)) = .ok (edgeInstr p r i) := by
  simp only [decode, decodeStep_eq, stepWord_rst, stepWord_busy, stepWord_start, stepWord_cdone, stepWord_hlast, stepWord_desc,
    edgeInstr]

theorem fetchEdge_eq (s : State) :
    fetchEdge s = .ok (edgeInstr s.params s.regs s.input, { s with script := s.presented.2 }) := by
  simp only [fetchEdge, decode_stepWord]

end Sys2Proof
end

