-- ==== Sys2Proof/Laws/State.lean ====
section
/-! SUPPORT. One lemma per field and update of State: no later proof unfolds a record update. -/

namespace Sys2Proof.Machine

section Fit
variable (p : Params) (r : Regs)

@[simp] theorem fit_busy : (r.fit p).busy = r.busy := rfl
@[simp] theorem fit_mode : (r.fit p).mode = r.mode := rfl
@[simp] theorem fit_frame : (r.fit p).frame = r.frame := rfl
@[simp] theorem fit_h : (r.fit p).h = r.h := rfl
@[simp] theorem fit_irOut : (r.fit p).irOut = r.irOut := rfl

/-- Registers whose `c` has CW bits are written as they are. -/
theorem fit_eq {p : Params} {r : Regs} (h : r.c < 2 ^ p.cw) : r.fit p = r := by
  simp only [Regs.fit, Nat.mod_eq_of_lt h]

@[simp] theorem fit_zero (busy : Bool) (m : Mode) (f : FrameWord) (h : HalfIdx) (v : Level) :
    Regs.fit p ⟨busy, m, f, h, 0, v⟩ = ⟨busy, m, f, h, 0, v⟩ := fit_eq (Nat.two_pow_pos _)

@[simp] theorem fit_acceptRegs (m : Mode) (f : FrameWord) : (acceptRegs m f).fit p = acceptRegs m f := fit_zero p _ _ _ _ _

@[simp] theorem fit_reset : Regs.reset.fit p = Regs.reset := fit_zero p _ _ _ _ _

/-- The registers that a block holds fit. -/
@[simp] theorem fit_regs (s : State) : s.regs.fit s.params = s.regs := fit_eq s.fits

end Fit

section WithRegs
variable (s : State) (r : Regs)

@[simp] theorem withRegs_regs : (s.withRegs r).regs = r.fit s.params := rfl
@[simp] theorem withRegs_params : (s.withRegs r).params = s.params := rfl
@[simp] theorem withRegs_live : (s.withRegs r).live = s.live := rfl
@[simp] theorem withRegs_script : (s.withRegs r).script = s.script := rfl
@[simp] theorem withRegs_cycle : (s.withRegs r).cycle = s.cycle := rfl
@[simp] theorem withRegs_elements : (s.withRegs r).elements = s.elements := rfl
@[simp] theorem withRegs_line : (s.withRegs r).line = s.line := rfl

end WithRegs

section Clock
variable (s : State) (r : Regs)

@[simp] theorem clock_regs : (s.clock r).regs = r.fit s.params := rfl
@[simp] theorem clock_params : (s.clock r).params = s.params := rfl
@[simp] theorem clock_live : (s.clock r).live = s.live := rfl
@[simp] theorem clock_script : (s.clock r).script = s.script := rfl
@[simp] theorem clock_cycle : (s.clock r).cycle = s.cycle + 1 := rfl
@[simp] theorem clock_elements : (s.clock r).elements = s.elements := rfl
@[simp] theorem clock_line : (s.clock r).line = [r.irOut] := rfl

end Clock

theorem P_eq (p : Params) : p.P = p.pLast + 1 := rfl

theorem P_pos (p : Params) : 0 < p.P := Nat.succ_pos _

@[simp] theorem P_sub_one (p : Params) : p.P - 1 = p.pLast := rfl

/-- P fits in the CW bits of `c`. -/
theorem P_le_two_pow_cw (p : Params) : p.P ≤ 2 ^ p.cw := Nat.lt_log2_self

theorem pLast_lt_two_pow_cw (p : Params) : p.pLast < 2 ^ p.cw := P_le_two_pow_cw p

section SendElement
variable (s : State) (vs : List Level)

@[simp] theorem sendElement_busy : (s.sendElement vs).regs.busy = s.regs.busy := rfl
@[simp] theorem sendElement_mode : (s.sendElement vs).regs.mode = s.regs.mode := rfl
@[simp] theorem sendElement_frame : (s.sendElement vs).regs.frame = s.regs.frame := rfl
@[simp] theorem sendElement_h : (s.sendElement vs).regs.h = elementEnd s.regs.h vs.length := rfl
@[simp] theorem sendElement_c : (s.sendElement vs).regs.c = s.params.pLast := Nat.mod_eq_of_lt (pLast_lt_two_pow_cw _)
@[simp] theorem sendElement_irOut : (s.sendElement vs).regs.irOut = vs.getLastD s.regs.irOut := rfl
@[simp] theorem sendElement_params : (s.sendElement vs).params = s.params := rfl
@[simp] theorem sendElement_live : (s.sendElement vs).live = s.live := rfl
@[simp] theorem sendElement_script : (s.sendElement vs).script = s.script := rfl
@[simp] theorem sendElement_cycle : (s.sendElement vs).cycle = s.cycle + edgesToSend s.params s.regs vs.length := rfl
@[simp] theorem sendElement_elements : (s.sendElement vs).elements = s.elements := rfl
@[simp] theorem sendElement_line : (s.sendElement vs).line = stretch s.params vs := rfl

/-- All six registers after an element. -/
theorem sendElement_regs : (s.sendElement vs).regs =
    { s.regs with h := elementEnd s.regs.h vs.length, c := s.params.pLast, irOut := vs.getLastD s.regs.irOut } :=
  fit_eq (pLast_lt_two_pow_cw _)

end SendElement

section AcceptRegs
variable (m : Mode) (f : FrameWord)

@[simp] theorem acceptRegs_busy : (acceptRegs m f).busy = true := rfl
@[simp] theorem acceptRegs_mode : (acceptRegs m f).mode = m := rfl
@[simp] theorem acceptRegs_frame : (acceptRegs m f).frame = f := rfl
@[simp] theorem acceptRegs_h : (acceptRegs m f).h = 0#6 := rfl
@[simp] theorem acceptRegs_c : (acceptRegs m f).c = 0 := rfl
@[simp] theorem acceptRegs_irOut : (acceptRegs m f).irOut = level m f 0#6 := rfl

end AcceptRegs

section Reset

@[simp] theorem reset_busy : Regs.reset.busy = false := rfl
@[simp] theorem reset_mode : Regs.reset.mode = .standard := rfl
@[simp] theorem reset_frame : Regs.reset.frame = 0#20 := rfl
@[simp] theorem reset_h : Regs.reset.h = 0#6 := rfl
@[simp] theorem reset_c : Regs.reset.c = 0 := rfl
@[simp] theorem reset_irOut : Regs.reset.irOut = false := rfl

end Reset

end Sys2Proof.Machine
end

