-- ==== Sys2Proof/Laws/Ops.lean ====
section
/-! SUPPORT. One lemma per shared operation that says what it answers: the counters, the element's half-slots, the script, the line. -/

namespace Sys2Proof.Machine

/-- Below P - 1 the cycle counter counts up without wrapping. -/
theorem incC_eq {p : Params} {c : Nat} (h : c < p.pLast) : incC p c = c + 1 := by
  have := P_le_two_pow_cw p
  rw [P_eq] at this
  exact Nat.mod_eq_of_lt (by omega)

/-- Below 63 the half-slot index counts up without wrapping. -/
theorem incH_toNat {h : HalfIdx} (hh : h.toNat < 63) : (incH h).toNat = h.toNat + 1 := by
  simp [incH, BitVec.toNat_add]
  omega

/-- An element starts at the even half-slot at `h` or just after it. -/
theorem elementStart_toNat {h : HalfIdx} (hh : h.toNat < 63) : (elementStart h).toNat = h.toNat + h.toNat % 2 := by
  have h1 : h.toNat &&& 1 = h.toNat % 2 := Nat.and_one_is_mod _
  have h2 : (1#6).toNat = 1 := rfl
  simp only [elementStart, BitVec.toNat_add, BitVec.toNat_and, h2, h1]
  omega

/-- The last half-slot of an element of one to four half-slots. -/
theorem elementEnd_toNat {h : HalfIdx} {n : Nat} (hh : h.toNat + 4 ≤ 63) (hn : n ≤ 4) :
    (elementEnd h n).toNat = h.toNat + h.toNat % 2 + (n - 1) := by
  simp only [elementEnd, BitVec.toNat_add, elementStart_toNat (show h.toNat < 63 by omega), BitVec.toNat_ofNat]
  omega

/-- Cycles without a reset that a script presents are passed one at a time. -/
theorem passQuiet_succ {n : Nat} {script after : List Stmt} (h : passQuiet (n + 1) script = some after) :
    ∃ i rest, present script true = some (i, rest) ∧ i.rst = false ∧ passQuiet n rest = some after := by
  induction script with
  | nil => simp [passQuiet] at h
  | cons stmt rest ih =>
    cases stmt with
    | drive i =>
      simp only [passQuiet] at h
      split at h
      · cases h
      · rename_i hr
        exact ⟨i, rest, rfl, by simpa using hr, h⟩
    | reset => simp [passQuiet] at h
    | nop d => exact ⟨_, rest, rfl, rfl, h⟩
    | tx v => exact ⟨_, rest, rfl, rfl, h⟩
    | waitIdle d =>
      refine ⟨_, .waitIdle d :: rest, rfl, rfl, ?_⟩
      cases n <;> exact h
    | cycles m d =>
      cases m with
      | zero => exact ih (by simpa [passQuiet] using h)
      | succ m =>
        refine ⟨_, .cycles m d :: rest, rfl, rfl, ?_⟩
        simp only [passQuiet] at h
        cases n with
        | zero =>
          rw [← h]
          cases m <;> simp [passQuiet]
        | succ n =>
          rw [← h]
          simp only [passQuiet, Nat.add_sub_add_right]
          split <;> split <;> first | omega | rfl

/-- A waiting host presents no reset in any number of cycles. -/
theorem passQuiet_waitIdle (n : Nat) (d : Desc) (rest : List Stmt) :
    passQuiet n (.waitIdle d :: rest) = some (.waitIdle d :: rest) := by
  cases n <;> rfl

/-- A stretched sequence has P entries for each level. -/
theorem length_stretch (p : Params) (vs : List Level) : (stretch p vs).length = vs.length * p.P := by
  induction vs with
  | nil => simp [stretch]
  | cons v vs ih =>
    simp only [stretch, List.flatMap_cons, List.length_append, List.length_replicate, List.length_cons] at *
    rw [ih, Nat.succ_mul]
    omega

theorem stretch_append (p : Params) (vs ws : List Level) : stretch p (vs ++ ws) = stretch p vs ++ stretch p ws := by
  simp [stretch]

/-- The first half of a bit is its complement, the second half the bit itself. -/
theorem bitHalf_eq (b : Bool) (h : HalfIdx) : bitHalf b h = (if h.toNat % 2 = 1 then b else !b) := by
  simp only [bitHalf, BitVec.getLsbD, Nat.testBit_zero, decide_eq_true_eq]

theorem elementsOf_standard_length (f : FrameWord) : (elementsOf .standard f).length = 14 := by simp [elementsOf]

theorem elementsOf_extended_length (f : FrameWord) : (elementsOf .extended f).length = 21 := by simp [elementsOf]

end Sys2Proof.Machine
end

