-- ==== Sys2Proof/Laws/PerInstr.lean ====
section
/-! SUPPORT. Per instruction: the word of a well-formed instruction matches the instruction's own row. -/

namespace Sys2Proof.Laws
open Sys2Proof

/-- The row that stands for the instruction applies to its word and builds it back. Which row comes first is not said here. -/
def RowMatch.Statement (i : Instr) : Prop :=
  i.wellFormed = true →
    match encode i with
    | .edge d => ∃ row ∈ stepTable, row.applies d = true ∧ row.build (StepWord.desc d) = i
    | .element e => decodeElement e = .ok i

/-- The descriptor stands whole in an accept's word. -/
theorem desc_of_accept_word (v : Desc) : StepWord.desc (0x0400000000#37 ||| v.setWidth 37) = v := by
  refine BitVec.eq_of_getLsbD_eq fun k hk => ?_
  simp only [StepWord.desc, BitVec.getLsbD_setWidth, BitVec.getLsbD_or, hk, decide_true, Bool.true_and,
    show k < 37 by omega]
  interval_cases k <;> simp

/-- Above the descriptor an accept's word has `start` alone. -/
theorem upper_bits_of_accept_word (v : Desc) :
    (0x0400000000#37 ||| v.setWidth 37).getLsbD 36 = false ∧ (0x0400000000#37 ||| v.setWidth 37).getLsbD 35 = false ∧
      (0x0400000000#37 ||| v.setWidth 37).getLsbD 34 = true := by
  simp only [BitVec.getLsbD_or, BitVec.getLsbD_setWidth]
  simp

theorem RowMatch.reset : RowMatch.Statement .reset := fun _ => ⟨_, .head _, by decide⟩
theorem RowMatch.nop : RowMatch.Statement .nop := fun _ => ⟨_, .tail _ (.head _), by decide⟩
theorem RowMatch.hold : RowMatch.Statement .hold := fun _ => ⟨_, .tail _ (.tail _ (.tail _ (.tail _ (.head _)))), by decide⟩
theorem RowMatch.advance : RowMatch.Statement .advance :=
  fun _ => ⟨_, .tail _ (.tail _ (.tail _ (.tail _ (.tail _ (.head _))))), by decide⟩
theorem RowMatch.finish : RowMatch.Statement .finish :=
  fun _ => ⟨_, .tail _ (.tail _ (.tail _ (.tail _ (.tail _ (.tail _ (.head _)))))), by decide⟩
theorem RowMatch.bit0 : RowMatch.Statement .bit0 := fun _ => rfl
theorem RowMatch.bit1 : RowMatch.Statement .bit1 := fun _ => rfl
theorem RowMatch.pause : RowMatch.Statement .pause := fun _ => rfl

theorem RowMatch.txStd (v : Desc) : RowMatch.Statement (.txStd v) := fun h => by
  refine ⟨_, .tail _ (.tail _ (.head _)), ?_, by rw [desc_of_accept_word]⟩
  obtain ⟨h36, h35, h34⟩ := upper_bits_of_accept_word v
  simp only [StepRow.applies, row_txStd, h36, h35, h34, desc_of_accept_word]
  simpa [Instr.wellFormed] using h

theorem RowMatch.txExt (v : Desc) : RowMatch.Statement (.txExt v) := fun h => by
  refine ⟨_, .tail _ (.tail _ (.tail _ (.head _))), ?_, by rw [desc_of_accept_word]⟩
  obtain ⟨h36, h35, h34⟩ := upper_bits_of_accept_word v
  simp only [StepRow.applies, row_txExt, h36, h35, h34, desc_of_accept_word]
  simpa [Instr.wellFormed] using h

end Sys2Proof.Laws
end

