-- ==== Sys2Proof/Laws/Step.lean ====
section
/-! SUPPORT. What the fetch and one step can do: an edge, an element or a refusal. -/

namespace Sys2Proof.Machine

theorem fetch_of_rst {s : State} (h : s.input.rst = true) : s.fetch = fetchEdge s := by simp [State.fetch, h]

theorem fetch_of_idle {s : State} (hl : s.live = true) (hb : s.regs.busy = false) : s.fetch = fetchEdge s := by
  unfold State.fetch
  rw [hl, hb]
  split <;> rfl

theorem fetch_of_not_played {s : State} (hl : s.live = true) (hc : 0b11#2 ∉ s.elements) (hp : s.playedElement.isNone = true) :
    s.fetch = fetchEdge s := by
  have hp' : s.playedElement = none := Option.isNone_iff_eq_none.mp hp
  have hc' : s.elements.contains 0b11#2 = false := by simpa using hc
  unfold State.fetch
  rw [hl, hp', hc']
  split
  · rfl
  · cases s.regs.busy <;> rfl

theorem playedElement_nil {s : State} (he : s.elements = []) : s.playedElement.isNone = true := by
  unfold State.playedElement
  rw [he]
  rfl

/-- Without a model frame every step after the first reset is a clock edge. -/
theorem atEdge_of_no_elements {s : State} (hl : s.live = true) (he : s.elements = []) : s.atEdge :=
  Or.inr ⟨hl, Or.inr ⟨by simp [he], playedElement_nil he⟩⟩

/-- At an edge the step runs the instruction of the step word on the state past the presented input. -/
theorem step_atEdge {s : State} (h : s.atEdge) :
    step s = exec (edgeInstr s.params s.regs s.input) { s with script := s.presented.2 } := by
  have hf : s.fetch = fetchEdge s := by
    rcases h with h | ⟨hl, hb | ⟨hc, hp⟩⟩
    · exact fetch_of_rst h
    · exact fetch_of_idle hl hb
    · exact fetch_of_not_played hl hc hp
  simp only [step, hf, fetchEdge_eq]

/-- What an element step needs and what it runs. -/
theorem playedElement_eq_some {s : State} {i : Instr} {t : State} :
    s.playedElement = some (i, t) ↔
      ∃ e rest after, s.elements = elementCode e :: rest ∧ (remainingElements s.regs).head? = some e ∧
        atElementBoundary s.params s.regs = true ∧
        passQuiet (edgesToSend s.params s.regs (halves e).length) s.script = some after ∧
        decode (.element (elementCode e)) = .ok i ∧ t = { s with elements := rest, script := after } := by
  unfold State.playedElement
  constructor
  · intro h
    split at h
    · rename_i code rest e hs he
      split at h
      · rename_i hb
        simp only [Bool.and_eq_true, beq_iff_eq] at hb
        obtain ⟨hb, rfl⟩ := hb
        split at h
        · rename_i j after hd hq
          simp only [Option.some.injEq, Prod.mk.injEq] at h
          obtain ⟨rfl, rfl⟩ := h
          exact ⟨e, rest, after, hs, he, hb, hq, hd, rfl⟩
        · cases h
      · cases h
    · cases h
  · rintro ⟨e, rest, after, hs, he, hb, hq, hd, rfl⟩
    simp only [hs, he, hb, hq, hd, beq_self_eq_true, Bool.and_self, if_true]

/-- Sending an element by name. -/
theorem exec_element (e : Element) (s : State) {i : Instr} (h : decode (.element (elementCode e)) = .ok i) :
    exec i s = .next (s.sendElement (halves e)) := by
  rcases e with (_ | _) | _ <;> · cases h; rfl

/-- The next element of the frame in progress is one step, where the host's model frame names it. -/
theorem step_element {s : State} {i : Instr} {t : State} (hr : s.input.rst = false) (hl : s.live = true)
    (hb : s.regs.busy = true) (hc : 0b11#2 ∉ s.elements) (hp : s.playedElement = some (i, t)) : step s = exec i t := by
  have hc' : s.elements.contains 0b11#2 = false := by simpa using hc
  unfold step State.fetch
  rw [hr, hl, hb, hc', hp]
  rfl

/-- While busy, a model frame with the reserved code is refused. -/
theorem step_reserved {s : State} (hr : s.input.rst = false) (hl : s.live = true) (hb : s.regs.busy = true)
    (hc : 0b11#2 ∈ s.elements) : step s = .refused .reservedElement := by
  have hc' : s.elements.contains 0b11#2 = true := by simpa using hc
  unfold step State.fetch
  rw [hr, hl, hb, hc']
  rfl

theorem step_beforeFirstReset {s : State} (hr : s.input.rst = false) (hl : s.live = false) :
    step s = .refused .beforeFirstReset := by
  unfold step State.fetch
  rw [hr, hl]
  rfl

/-- Every state is at an edge, at an element, at a reserved code, or before its first reset. -/
theorem step_cases (s : State) :
    s.atEdge ∨
      (s.input.rst = false ∧ s.live = true ∧ s.regs.busy = true ∧ 0b11#2 ∉ s.elements ∧
        ∃ i t, s.playedElement = some (i, t) ∧ step s = exec i t) ∨
      (s.input.rst = false ∧ s.live = true ∧ s.regs.busy = true ∧ 0b11#2 ∈ s.elements ∧
        step s = .refused .reservedElement) ∨
      (s.input.rst = false ∧ s.live = false ∧ step s = .refused .beforeFirstReset) := by
  cases hr : s.input.rst
  · cases hl : s.live
    · exact Or.inr (Or.inr (Or.inr ⟨rfl, rfl, step_beforeFirstReset hr hl⟩))
    · cases hb : s.regs.busy
      · exact Or.inl (Or.inr ⟨hl, Or.inl hb⟩)
      · by_cases hc : 0b11#2 ∈ s.elements
        · exact Or.inr (Or.inr (Or.inl ⟨rfl, rfl, rfl, hc, step_reserved hr hl hb hc⟩))
        · cases hp : s.playedElement with
          | none => exact Or.inl (Or.inr ⟨hl, Or.inr ⟨hc, by rw [hp]; rfl⟩⟩)
          | some x => exact Or.inr (Or.inl ⟨rfl, rfl, rfl, hc, x.1, x.2, rfl, step_element hr hl hb hc hp⟩)
  · exact Or.inl (Or.inl hr)

/-- What a step can do: the instruction of a clock edge, or the next element of the frame in progress, whole. -/
theorem step_next {s t : State} (h : step s = .next t) :
    (s.atEdge ∧ exec (edgeInstr s.params s.regs s.input) { s with script := s.presented.2 } = .next t) ∨
      (s.input.rst = false ∧ s.live = true ∧ s.regs.busy = true ∧ 0b11#2 ∉ s.elements ∧
        ∃ e rest after, s.elements = elementCode e :: rest ∧ (remainingElements s.regs).head? = some e ∧
          atElementBoundary s.params s.regs = true ∧
          passQuiet (edgesToSend s.params s.regs (halves e).length) s.script = some after ∧
          t = State.sendElement { s with elements := rest, script := after } (halves e)) := by
  rcases step_cases s with ha | ⟨hr, hl, hb, hc, i, u, hp, he⟩ | ⟨_, _, _, _, he⟩ | ⟨_, _, he⟩
  · rw [step_atEdge ha] at h
    exact Or.inl ⟨ha, h⟩
  · obtain ⟨e, rest, after, h1, h2, h3, h4, h5, rfl⟩ := playedElement_eq_some.1 hp
    rw [he, exec_element e _ h5] at h
    injection h with h
    exact Or.inr ⟨hr, hl, hb, hc, e, rest, after, h1, h2, h3, h4, h.symm⟩
  · rw [he] at h
    cases h
  · rw [he] at h
    cases h

/-- Three codes name an element, the fourth none. -/
theorem decodeElement_cases (e : ElementCode) :
    (e = 0b00#2 ∧ decodeElement e = .ok .bit0) ∨ (e = 0b01#2 ∧ decodeElement e = .ok .bit1) ∨
      (e = 0b10#2 ∧ decodeElement e = .ok .pause) ∨ (e = 0b11#2 ∧ decodeElement e = .error .reservedElement) := by
  revert e; decide

/-- Every instruction answers a next state. -/
theorem exec_next (i : Instr) (s : State) : ∃ t, exec i s = .next t := by
  cases i <;> exact ⟨_, rfl⟩

end Sys2Proof.Machine
end

