-- ==== Sys2Proof/Tests/Slice0.lean ====
section
/-!
SUPPORT. The model's own tests. Expected results come from 95_test_vectors.md (named L1, L2 and L3 there) or from the rule a test
cites. The second half gives, for every statement with hypotheses, states and operands that meet them.
-/

namespace Sys2Proof.Tests
open Sys2Proof Sys2Proof.Machine

-- ---------------------------------------------------------------- helpers

/-- Parameters with P = p + 1. -/
def params (p : Nat) : Params := { pLast := p, fClk := 1000000 }

/-- Registers in the order of 10_state.md R30. -/
def regs (busy : Bool) (mode : Mode) (frame : FrameWord) (h : HalfIdx) (c : Nat) (irOut : Level) : Regs :=
  { busy, mode, frame, h, c, irOut }

/-- A block past its reset with P = p + 1, the given registers and one input vector to come. -/
def block (p : Nat) (r : Regs) (i : Input) : State :=
  { params := params p, regs := r.fit (params p), fits := r.fit_lt (params p)
    live := true, script := [.drive i], cycle := 0, elements := [], line := [r.irOut] }

/-- The same block with a host that waits and follows it by the model frame `es`. -/
def player (p : Nat) (r : Regs) (es : List ElementCode) : State :=
  { block p r ⟨false, false, 0#32⟩ with elements := es, script := [.waitIdle 0#32] }

/-- The registers of a next state. -/
def after : Host.Outcome State Fault Refusal → Option Regs
  | .next t => some t.regs
  | _ => none

/-- The levels of a next state. -/
def levels : Host.Outcome State Fault Refusal → List Level
  | .next t => t.line
  | _ => []

/-- Why a step was refused. -/
def reason : Host.Outcome State Fault Refusal → Option Refusal
  | .refused r => some r
  | _ => none

/-- A line as 95_test_vectors.md L2-4 writes it, one digit for each half-slot. -/
def digits (s : String) : List Level := s.toList.map (· == '1')

/-- The registers right after reset. -/
def idle : Regs := regs false .standard 0#20 0#6 0 false

/-- No reset and no request. -/
def quiet : Input := ⟨false, false, 0#32⟩

-- ---------------------------------------------------------------- well-formedness (30_encoding.md R60)

theorem test_txStd_upper_half_refused : (Instr.txStd 0x10000#32).wellFormed = false := by decide
theorem test_txExt_upper_half_zero_refused : (Instr.txExt 0xFFFF#32).wellFormed = false := by decide
theorem test_both_formats_well_formed :
    (Instr.txStd 0xFFFF#32).wellFormed = true ∧ (Instr.txExt 0x80000000#32).wellFormed = true := by decide

-- ---------------------------------------------------------------- decode: words bit by bit (R67: rst busy start cdone hlast desc)

theorem test_decode_reset : decodeTableWord 40 0b1_0100_0000000000000000_0000000000000000 = some .reset := by decide
theorem test_decode_reset_busy : decodeTableWord 40 0b1_1000_0000000000000000_0000000000000000 = some .reset := by decide
theorem test_decode_nop : decodeTableWord 40 0b0_0000_1111111111111111_1111111111111111 = some .nop := by decide
theorem test_decode_txStd :
    decodeTableWord 40 0b0_0100_0000000000000000_0001000000001100 = some (.txStd 0x100C#32) := by decide
theorem test_decode_txStd_largest :
    decodeTableWord 40 0b0_0100_0000000000000000_1111111111111111 = some (.txStd 0xFFFF#32) := by decide
theorem test_decode_txExt :
    decodeTableWord 40 0b0_0100_0000000000010000_0000110000000001 = some (.txExt 0x100C01#32) := by decide
theorem test_decode_txExt_top_bit :
    decodeTableWord 40 0b0_0100_1000000000000000_0000000000000000 = some (.txExt 0x80000000#32) := by decide
theorem test_decode_hold : decodeTableWord 40 0b0_1100_0000000000000000_0000000000000000 = some .hold := by decide
theorem test_decode_hold_last : decodeTableWord 40 0b0_1001_0000000000000000_0000000000000000 = some .hold := by decide
theorem test_decode_advance : decodeTableWord 40 0b0_1010_0000000000000000_0000000000000000 = some .advance := by decide
theorem test_decode_finish : decodeTableWord 40 0b0_1111_0000000000000000_0000000000000000 = some .finish := by decide
theorem test_decode_elements :
    decodeTableWord 8 0b00 = some .bit0 ∧ decodeTableWord 8 0b01 = some .bit1 ∧ decodeTableWord 8 0b10 = some .pause ∧
    decodeTableWord 8 0b11 = none := by decide

-- ---------------------------------------------------------------- the encoder (L1, L2-1, L2-2)

theorem test_encoder_standard :
    [0x100C#32, 0x0000#32, 0x1F3F#32, 0x0C01#32, 0x003F#32, 0x0040#32, 0x007F#32, 0x1080#32, 0x10C0#32, 0x20AB#32, 0x3FC0#32,
      0x8000#32, 0xFFFF#32].map encodeFrame
    = [0x3C0C#20, 0x3800#20, 0x3FFF#20, 0x3B01#20, 0x383F#20, 0x2800#20, 0x283F#20, 0x2C00#20, 0x2C00#20, 0x282B#20, 0x2FC0#20,
      0x3800#20, 0x2FFF#20] := by decide
theorem test_encoder_extended :
    [0x100C01#32, 0x010000#32, 0x1F0000#32, 0x054A3F#32, 0x1000C0#32, 0x200000#32, 0x01000000#32, 0x80000000#32, 0xFFFFFF#32,
      0xFFFFFFFF#32, 0x10400C#32, 0x108000#32, 0x1F7F3F#32].map encodeFrame
    = [0xF0301#20, 0xE1000#20, 0xFF000#20, 0xA52BF#20, 0xF0000#20, 0xE0000#20, 0xE0000#20, 0xE0000#20, 0xBFFFF#20,
      0xBFFFF#20, 0xB000C#20, 0xB0000#20, 0xBFFFF#20] := by decide
theorem test_mode_boundary :
    [0xFFFF#32, 0x10000#32, 0x00FF0000#32, 0x01000000#32, 0x80000000#32, 0#32].map modeOf
    = [.standard, .extended, .extended, .extended, .extended, .standard] := by decide

-- ---------------------------------------------------------------- half-slots and levels (L2-4, L2-5)

theorem test_half_slots_100C : halfSlots 0x100C#32 = digits "0101010110101010101001011010" := by decide
theorem test_half_slots_2FFF : halfSlots 0x2FFF#32 = digits "0110011001010101010101010101" := by decide
theorem test_half_slots_100C01 : halfSlots 0x100C01#32 = digits "01010101101010100000101001011010101010101001" := by decide
theorem test_half_slots_054A3F : halfSlots 0x054A3F#32 = digits "01100110100110010000101001100110010101010101" := by decide
theorem test_level_spots :
    level .standard 0x3C0C#20 0#6 = false ∧ level .standard 0x3C0C#20 1#6 = true ∧ level .standard 0x3C0C#20 27#6 = false ∧
    level .extended 0xF0301#20 15#6 = false ∧ level .extended 0xBFFFF#20 16#6 = false ∧
    level .extended 0xBFFFF#20 19#6 = false ∧ level .extended 0xF0301#20 20#6 = true ∧
    level .extended 0xF0301#20 43#6 = true := by decide

-- ---------------------------------------------------------------- steps with P = 3 (L2-7)

theorem test_reset_mid_frame :
    after (step (block 2 (regs true .extended 0xF0301#20 17#6 2 false) ⟨true, true, 0x100C#32⟩)) = some idle := by decide
theorem test_reset_at_power_on :
    after (step { block 2 idle ⟨true, false, 0#32⟩ with live := false }) = some idle := by decide
theorem test_refused_at_power_on :
    reason (step { block 2 idle ⟨false, true, 0#32⟩ with live := false }) = some .beforeFirstReset := by decide
theorem test_nop : after (step (block 2 idle ⟨false, false, 0xFFFFFFFF#32⟩)) = some idle := by decide
theorem test_txStd :
    after (step (block 2 (regs false .extended 0xF0301#20 0#6 0 false) ⟨false, true, 0x100C#32⟩))
    = some (regs true .standard 0x03C0C#20 0#6 0 false) := by decide
theorem test_txExt :
    after (step (block 2 (regs false .standard 0x03C0C#20 0#6 0 false) ⟨false, true, 0x100C01#32⟩))
    = some (regs true .extended 0xF0301#20 0#6 0 false) := by decide
theorem test_hold_start_ignored :
    after (step (block 2 (regs true .standard 0x03C0C#20 0#6 0 false) ⟨false, true, 0#32⟩))
    = some (regs true .standard 0x03C0C#20 0#6 1 false) := by decide
theorem test_hold :
    after (step (block 2 (regs true .standard 0x03C0C#20 0#6 1 false) quiet))
    = some (regs true .standard 0x03C0C#20 0#6 2 false) := by decide
theorem test_advance :
    after (step (block 2 (regs true .standard 0x03C0C#20 0#6 2 false) quiet))
    = some (regs true .standard 0x03C0C#20 1#6 0 true) := by decide
theorem test_advance_out_of_pause :
    after (step (block 2 (regs true .extended 0xF0301#20 19#6 2 false) quiet))
    = some (regs true .extended 0xF0301#20 20#6 0 true) := by decide
theorem test_finish_standard :
    after (step (block 2 (regs true .standard 0x03C0C#20 27#6 2 false) ⟨false, true, 0x100C#32⟩))
    = some (regs false .standard 0x03C0C#20 0#6 0 false) := by decide
theorem test_finish_extended :
    after (step (block 2 (regs true .extended 0xF0301#20 43#6 2 true) quiet))
    = some (regs false .extended 0xF0301#20 0#6 0 false) := by decide

-- ---------------------------------------------------------------- elements with P = 2 (41_transmitter.md R98 to R100)

/-- `0x100C` after its first bit: half-slot 1 in its last cycle, and bits 1 and 0 ahead of it in the frame `11110000001100`. -/
theorem test_bit1 :
    levels (step (player 1 (regs true .standard 0x03C0C#20 1#6 1 true) [0b01#2])) = [false, false, true, true] := by decide
theorem test_bit0 :
    after (step (player 1 (regs true .standard 0x03C0C#20 7#6 1 true) [0b00#2]))
      = some (regs true .standard 0x03C0C#20 9#6 1 false) ∧
    levels (step (player 1 (regs true .standard 0x03C0C#20 7#6 1 true) [0b00#2])) = [true, true, false, false] := by decide
theorem test_pause :
    after (step (player 1 (regs true .extended 0xF0301#20 15#6 1 false) [0b10#2]))
      = some (regs true .extended 0xF0301#20 19#6 1 false) ∧
    levels (step (player 1 (regs true .extended 0xF0301#20 15#6 1 false) [0b10#2])) = List.replicate 8 false := by decide
/-- A model frame that names another element than the frame in progress, or a reset inside the element: the step is a clock edge. -/
theorem test_element_not_in_frame :
    after (step (player 1 (regs true .standard 0x03C0C#20 7#6 1 true) [0b01#2]))
      = some (regs true .standard 0x03C0C#20 8#6 0 true) := by decide
theorem test_element_cut_off :
    after (step { player 1 (regs true .standard 0x03C0C#20 7#6 1 true) [0b00#2] with script := [.cycles 3 0#32, .reset] })
      = some (regs true .standard 0x03C0C#20 8#6 0 true) := by decide
theorem test_reserved_element :
    reason (step (player 1 (regs true .extended 0xF0301#20 0#6 0 false) [0b01#2, 0b11#2])) = some .reservedElement := by decide

-- ---------------------------------------------------------------- the host's interface

theorem test_fetch_word_txExt : after (step (State.reset.withFetchWord 40 0x0400100C01))
    = some (regs true .extended 0xF0301#20 0#6 0 false) := by decide
theorem test_fetch_word_pause : after (step (State.reset.withFetchWord 8 2))
    = some (regs true .extended 0#20 19#6 888 false) := by decide

-- ---------------------------------------------------------------- witnesses: the hypotheses of each statement can be met

/-- The example frames in progress, with P = 3: the invariant holds. -/
theorem inv_standard_h0 : RegsInv (params 2) (regs true .standard 0x03C0C#20 0#6 1 false) :=
  ⟨by decide, by decide, by decide, by decide⟩
theorem inv_standard_h26 : RegsInv (params 2) (regs true .standard 0x03C0C#20 26#6 2 true) :=
  ⟨by decide, by decide, by decide, by decide⟩
theorem inv_standard_h27 : RegsInv (params 2) (regs true .standard 0x03C0C#20 27#6 2 false) :=
  ⟨by decide, by decide, by decide, by decide⟩
theorem inv_extended_h43 : RegsInv (params 2) (regs true .extended 0xF0301#20 43#6 2 true) :=
  ⟨by decide, by decide, by decide, by decide⟩
theorem inv_one_cycle : RegsInv (params 0) (regs true .standard 0x03C0C#20 27#6 0 false) :=
  ⟨by decide, by decide, by decide, by decide⟩
theorem inv_idle (p : Nat) : RegsInv (params p) idle :=
  ⟨fun _ => ⟨rfl, rfl, rfl⟩, fun h => Bool.noConfusion h, fun h => Bool.noConfusion h, fun _ => rfl⟩

theorem witness_StepRunsDecodedInstruction :
    (∃ s : State, s.atEdge ∧ decode (.edge (stepWord s.params s.regs s.input)) = .ok .finish) ∧
    (∃ s : State, s.input.rst = false ∧ s.live = true ∧ 0b11#2 ∉ s.elements ∧ s.elements = elementCode .pause :: [0b01#2] ∧
      (remainingElements s.regs).head? = some .pause ∧ atElementBoundary s.params s.regs = true ∧
      passQuiet (edgesToSend s.params s.regs (halves .pause).length) s.script = some [.waitIdle 0#32] ∧
      decode (.element (elementCode .pause)) = .ok .pause) ∧ Instr.finish.wellFormed = true ∧ Instr.pause.wellFormed = true :=
  ⟨⟨block 2 (regs true .extended 0xF0301#20 43#6 2 true) quiet, by decide, by rfl⟩,
   ⟨player 2 (regs true .extended 0xF0301#20 15#6 2 false) [0b10#2, 0b01#2], by decide, by decide, by decide, by decide, by decide,
     by decide, by decide, by rfl⟩, by decide, by decide⟩

theorem witness_DecodeOfEncodeIsIdentity :
    (Instr.txStd 0xFFFF#32).wellFormed = true ∧ (Instr.txExt 0x10000#32).wellFormed = true := by decide

theorem witness_DecoderAnswersWellFormed :
    decode (.edge 0x0480000000#37) = .ok (.txExt 0x80000000#32) ∧ decode (.element 0b10#2) = .ok .pause := ⟨rfl, rfl⟩

/-- Words of 95_test_vectors.md L2-6, one for each clause, and a TX_STD word at the upper boundary. -/
theorem witness_EveryStepWordHasItsRow :
    0x1800000000#37 &&& 0x1000000000#37 = 0x1000000000#37 ∧
    (0x00FFFFFFFF#37 &&& 0x1000000000#37 ≠ 0x1000000000#37 ∧ 0x040000FFFF#37 &&& 0x1000000000#37 ≠ 0x1000000000#37 ∧
      0x0400010000#37 &&& 0x1000000000#37 ≠ 0x1000000000#37 ∧ 0x0C00000000#37 &&& 0x1000000000#37 ≠ 0x1000000000#37 ∧
      0x0A00000000#37 &&& 0x1000000000#37 ≠ 0x1000000000#37 ∧ 0x0F00000000#37 &&& 0x1000000000#37 ≠ 0x1000000000#37) ∧
    0x00FFFFFFFF#37 &&& 0x1C00000000#37 = 0#37 ∧
    0x040000FFFF#37 &&& 0x1CFFFF0000#37 = 0x0400000000#37 ∧
    (0x0400010000#37 &&& 0x1CFFFF0000#37 ≠ 0x0400000000#37 ∧ 0x0400010000#37 &&& 0x1C00000000#37 = 0x0400000000#37) ∧
    0x0C00000000#37 &&& 0x1A00000000#37 = 0x0800000000#37 ∧ 0x0A00000000#37 &&& 0x1B00000000#37 = 0x0A00000000#37 ∧
    0x0F00000000#37 &&& 0x1B00000000#37 = 0x0B00000000#37 := by decide

theorem witness_WithFetchWordRunsTheWord :
    decodeTableWord 40 0x0F00000000 = some .finish ∧ decodeTableWord 8 2 = some .pause := by decide

theorem witness_ReservedElementCodeRefused :
    ∃ s : State, s.input.rst = false ∧ s.live = true ∧ s.regs.busy = true ∧ 0b11#2 ∈ s.elements :=
  ⟨player 2 (regs true .standard 0x03C0C#20 0#6 0 false) [0b01#2, 0b11#2], by decide⟩

theorem witness_StandardFrameWord : (0xFFFF#32).toNat < 65536 := by decide
theorem witness_ExtendedFrameWord : 65536 ≤ (0x10000#32).toNat := by decide

theorem witness_SecondStartBitComparesTheWholeByte :
    modeOf 0x0040#32 = .standard ∧ modeOf 0x10400C#32 = .extended ∧ (127#8).toNat < 128 ∧
    (128 ≤ (128#8).toNat ∧ (128#8).toNat < 192) ∧ (128 ≤ (191#8).toNat ∧ (191#8).toNat < 192) := by decide

theorem witness_StartAndToggleBitsAreOne : modeOf 0#32 = .standard ∧ modeOf 0x10000#32 = .extended := by decide

theorem witness_ElementSequences :
    modeOf 0xFFFF#32 = .standard ∧ modeOf 0xFFFFFFFF#32 = .extended ∧ 13 < 14 ∧ 7 < 8 ∧ 11 < 12 := by decide

theorem witness_IgnoredDescriptorBits :
    (modeOf 0x1F40#32 = .standard ∧ modeOf 0xFF40#32 = .standard ∧ 0x1F40#32 &&& 0x1FFF#32 = 0xFF40#32 &&& 0x1FFF#32) ∧
    (modeOf 0x010000#32 = .extended ∧ modeOf 0xFFE100C0#32 = .extended ∧
      0x010000#32 &&& 0x1FFF3F#32 = 0xFFE100C0#32 &&& 0x1FFF3F#32) := by decide

theorem witness_EncoderProperties :
    (31 < 32 ∧ 63 < 64) ∧ (31 < 32 ∧ 64 ≤ 64 ∧ 64 < 128) ∧ (31 < 32 ∧ 64 ≤ 127 ∧ 127 < 128) ∧
    (1 ≤ 1 ∧ 1 < 32 ∧ 63 < 64 ∧ 127 < 128) := by decide

/-- Two descriptors with one frame, and the largest of the injective domain in each mode. -/
theorem witness_FrameDeterminesFields :
    (modeOf 0x1080#32 = modeOf 0x10C0#32 ∧ encodeFrame 0x1080#32 = encodeFrame 0x10C0#32) ∧
    inInjectiveDomain 0x1F7F#32 ∧ inInjectiveDomain 0x1F7F3F#32 ∧ (commandByte (modeOf 0x7F#32) 0x7F#32).toNat < 128 := by decide

theorem witness_LevelIsTheHalfSlotEntry :
    (27#6).toNat < 28 ∧ (15#6).toNat < 16 ∧ (16 ≤ (16#6).toNat ∧ (19#6).toNat < 20) ∧
    (20 ≤ (20#6).toNat ∧ (43#6).toNat < 44) ∧ (43#6).toNat < halfSlotCount .extended := by decide

theorem witness_OneHighHalfSlotPerBit : modeOf 0x2FFF#32 = .standard ∧ modeOf 0x054A3F#32 = .extended := by decide

theorem witness_TransitionsOfAFrame :
    (∃ s : State, RegsInv s.params s.regs ∧ s.regs.busy = false) ∧
    (∃ s : State, RegsInv s.params s.regs ∧ s.regs.busy = true ∧ hlast s.regs = true ∧ s.regs.frame.getLsbD 0 = true) ∧
    (∃ s : State, RegsInv s.params s.regs ∧ s.regs.busy = true ∧ hlast s.regs = true ∧ s.regs.frame.getLsbD 0 = false) :=
  ⟨⟨block 2 idle quiet, inv_idle 2, rfl⟩,
   ⟨block 2 (regs true .extended 0xF0301#20 43#6 2 true) quiet, inv_extended_h43, by decide⟩,
   ⟨block 2 (regs true .standard 0x03C0C#20 27#6 2 false) quiet, inv_standard_h27, by decide⟩⟩

theorem witness_WaveformRoundTrip :
    modeOf 0x1F7F#32 = .standard ∧ modeOf 0x1F7F3F#32 = .extended ∧ inInjectiveDomain 0x1F7F#32 ∧
    inInjectiveDomain 0x1F7F3F#32 ∧ stretch (params 1) (halfSlots 0x8000#32) = stretch (params 1) (halfSlots 0#32) := by decide

theorem witness_ConformanceBound : 0 < (params 888).fClk ∧ (params 888).conforming = true ∧ (params 879).conforming = true ∧
    (params 877).conforming = false := by decide

theorem witness_CountersNeverWrap :
    (∃ s : State, RegsInv s.params s.regs ∧ s.regs.busy = true ∧ cdone s.params s.regs = false ∧ hlast s.regs = false) ∧
    (∃ s : State, RegsInv s.params s.regs ∧ s.regs.busy = true ∧ s.regs.h = 26#6 ∧ hlast s.regs = false) :=
  ⟨⟨block 2 (regs true .standard 0x03C0C#20 0#6 1 false) quiet, inv_standard_h0, by decide⟩,
   ⟨block 2 (regs true .standard 0x03C0C#20 26#6 2 true) quiet, inv_standard_h26, by decide⟩⟩

theorem witness_ResetInEveryState :
    (block 2 (regs true .extended 0xF0301#20 17#6 2 false) ⟨true, true, 0x100C#32⟩).input.rst = true := by decide

theorem witness_NopChangesNoRegister :
    ∃ s : State, s.input.rst = false ∧ s.regs.busy = false ∧ s.input.start = false ∧ s.live = true ∧ RegsInv s.params s.regs :=
  ⟨block 2 idle quiet, by decide, by decide, by decide, by decide, inv_idle 2⟩

theorem witness_AcceptStartsTheFrame :
    (0xFFFF#32).extractLsb' 16 16 = 0#16 ∧ (0x10000#32).extractLsb' 16 16 ≠ 0#16 ∧
    (∃ s : State, s.input.rst = false ∧ s.regs.busy = false ∧ s.input.start = true) ∧
    (∃ s t : State, step s = .next t ∧ s.regs.busy = true ∧ s.input.rst = false) :=
  ⟨by decide, by decide, ⟨block 2 idle ⟨false, true, 0x10000#32⟩, by decide⟩,
   ⟨block 2 (regs true .standard 0x03C0C#20 0#6 1 false) quiet, _, rfl, by decide, by decide⟩⟩

/-- The last cycle from which a half-slot is held, with P = 3, and the only one with P = 2. -/
theorem witness_HoldCountsOneCycle :
    (∃ s : State, s.regs.c < s.params.P ∧ s.regs.c ≠ s.params.P - 1 ∧ s.regs.c = 1 ∧ s.input.rst = false ∧ s.regs.busy = true) ∧
    (∃ s : State, s.regs.c < s.params.P ∧ s.regs.c ≠ s.params.P - 1 ∧ s.params.P = 2) :=
  ⟨⟨block 2 (regs true .standard 0x03C0C#20 0#6 1 false) quiet, by decide⟩,
   ⟨block 1 (regs true .standard 0x03C0C#20 0#6 0 false) quiet, by decide⟩⟩

theorem witness_AdvanceEntersTheNextHalfSlot :
    (∃ s : State, s.regs.h.toNat < halfSlotCount s.regs.mode ∧ s.regs.h.toNat ≠ halfSlotCount s.regs.mode - 1 ∧
      s.regs.h = 26#6 ∧ s.input.rst = false ∧ s.regs.busy = true ∧ s.regs.c = s.params.P - 1) ∧
    (∃ s : State, s.params.P = 1 ∧ RegsInv s.params s.regs ∧ s.regs.busy = true ∧ s.input.rst = false) :=
  ⟨⟨block 2 (regs true .standard 0x03C0C#20 26#6 2 true) quiet, by decide⟩,
   ⟨block 0 (regs true .standard 0x03C0C#20 27#6 0 false) quiet, by decide, inv_one_cycle, by decide, by decide⟩⟩

theorem witness_FinishEndsTheFrameLow :
    ∃ s : State, s.input.rst = false ∧ s.regs.busy = true ∧ s.regs.c = s.params.P - 1 ∧
      s.regs.h.toNat = halfSlotCount s.regs.mode - 1 :=
  ⟨block 2 (regs true .extended 0xF0301#20 43#6 2 true) quiet, by decide⟩

theorem witness_BitElementsDriveTwoHalfSlots :
    (62#6).toNat % 2 = 0 ∧ ((61#6).toNat % 2 = 1 ∧ (61#6).toNat < 62) := by decide

theorem witness_PauseDrivesFourLowHalfSlots :
    ((60#6).toNat % 2 = 0 ∧ (60#6).toNat < 62) ∧ ((59#6).toNat % 2 = 1 ∧ (59#6).toNat < 60) := by decide

/-- Before the first reset with a reset presented, idle, and busy in the last cycle of a half-slot. -/
theorem witness_StepIsTheListing :
    (∃ s : State, s.atEdge ∧ s.regs.c < s.params.P ∧ s.live = false) ∧
    (∃ s : State, s.atEdge ∧ s.regs.c < s.params.P ∧ s.elements ≠ []) ∧
    (∃ s : State, s.atEdge ∧ s.regs.c < s.params.P ∧ s.regs.c = s.params.P - 1 ∧ s.regs.busy = true) :=
  ⟨⟨{ block 2 idle ⟨true, false, 0#32⟩ with live := false }, by decide⟩,
   ⟨{ block 2 idle quiet with elements := [0b01#2] }, by decide⟩,
   ⟨block 2 (regs true .extended 0xF0301#20 43#6 2 true) quiet, by decide⟩⟩

theorem witness_ModelFieldsAfterAnInstruction :
    (∃ s : State, s.atEdge ∧ s.input.rst = true ∧ s.elements ≠ []) ∧ (∃ s : State, s.atEdge ∧ s.input.rst = false) :=
  ⟨⟨{ player 2 (regs true .standard 0x03C0C#20 0#6 0 false) [0b01#2] with script := [.reset] }, by decide⟩,
   ⟨block 2 idle quiet, by decide⟩⟩

theorem witness_BeforeTheFirstResetRefused :
    (∃ s : State, s.live = false ∧ s.input.rst = false) ∧ (∃ s : State, s.live = false ∧ s.input.rst = true) :=
  ⟨⟨{ block 2 idle quiet with live := false }, by decide⟩, ⟨{ block 2 idle ⟨true, true, 0#32⟩ with live := false }, by decide⟩⟩

/-- A frame cut off by a reset that is presented with a request, and a request in the cycle after it. -/
def resetThenRequest : State :=
  { block 2 (regs true .extended 0xF0301#20 17#6 2 true) quiet with script := [.drive ⟨true, true, 0#32⟩, .tx 0x100C#32] }

theorem witness_ClockEdgesKeepTheInvariants :
    (∃ s t : State, s.input.rst = true ∧ run (1 + 1) s = .next t ∧ t.regs.busy = true) ∧
    (∃ s t : State, s.live = true ∧ s.elements = [] ∧ RegsInv s.params s.regs ∧ step s = .next t) :=
  ⟨⟨resetThenRequest, _, by decide, rfl, by decide⟩,
   ⟨block 2 (regs true .standard 0x03C0C#20 26#6 2 true) quiet, _, by decide, by decide, inv_standard_h26, rfl⟩⟩

/-- A whole frame at its first cycle, and its last element at the end of the one before. -/
theorem witness_EveryStepKeepsInv :
    (∃ s t : State, Inv s ∧ step s = .next t ∧ s.elements = (elements 0x100C#32).map elementCode) ∧
    (∃ s t : State, Inv s ∧ step s = .next t ∧ s.elements = [0b01#2] ∧ s.regs.h = 41#6) :=
  ⟨⟨player 2 (regs true .standard 0x03C0C#20 0#6 0 false) ((elements 0x100C#32).map elementCode), _,
     ⟨by decide, ⟨by decide, by decide, by decide, by decide⟩, by decide⟩, rfl, rfl⟩,
   ⟨player 2 (regs true .extended 0xF0301#20 41#6 2 false) [0b01#2], _,
     ⟨by decide, ⟨by decide, by decide, by decide, by decide⟩, by decide⟩, rfl, rfl, rfl⟩⟩

theorem witness_ConstantBitsStayOne :
    ∃ s t : State, (s.regs.busy = true ∧ constantBits s.regs) ∧ step s = .next t :=
  ⟨block 2 (regs true .extended 0xF0301#20 17#6 2 false) quiet, _,
   ⟨rfl, fun _ => show (0xF0301#20).getLsbD 19 = true ∧ (0xF0301#20).getLsbD 17 = true by decide⟩, rfl⟩

theorem witness_NoReachedStepStops :
    (∃ t, resetThenRequest.input.rst = true ∧ run (1 + 1) resetThenRequest = .next t) ∧
    Inv (block 2 (regs true .extended 0xF0301#20 43#6 2 true) quiet) ∧
    (∃ s : State, s.live = false ∧ s.input.rst = false) :=
  ⟨⟨_, by decide, rfl⟩, ⟨rfl, inv_extended_h43, by decide⟩, ⟨{ block 2 idle quiet with live := false }, by decide⟩⟩

/-- A set by an accept, a clear by FINISH, and a clear by RESET. -/
theorem witness_BusySetAndCleared :
    (∃ s t : State, step s = .next t ∧ s.regs.busy = false ∧ t.regs.busy = true ∧ s.input.rst = false ∧ s.input.start = true) ∧
    (∃ s t : State, step s = .next t ∧ s.regs.busy = true ∧ t.regs.busy = false ∧ s.input.rst = false) ∧
    (∃ s t : State, step s = .next t ∧ s.regs.busy = true ∧ t.regs.busy = false ∧ s.input.rst = true) :=
  ⟨⟨block 2 idle ⟨false, true, 0x100C#32⟩, _, rfl, by decide⟩,
   ⟨block 2 (regs true .standard 0x03C0C#20 27#6 2 false) quiet, _, rfl, by decide⟩,
   ⟨block 2 (regs true .standard 0x03C0C#20 3#6 1 true) ⟨true, false, 0#32⟩, _, rfl, by decide⟩⟩

theorem witness_ModeAndFrameWritten :
    (∃ s t : State, step s = .next t ∧ s.input.rst = true) ∧
    (∃ s t : State, step s = .next t ∧ s.input.rst = false ∧ s.regs.busy = false ∧ s.input.start = true) ∧
    (∃ s t : State, step s = .next t ∧ s.input.rst = false ∧ s.regs.busy = true ∧ s.input.start = true) ∧
    (∃ s t : State, step s = .next t ∧ s.input.rst = false ∧ s.input.start = false) :=
  ⟨⟨block 2 idle ⟨true, false, 0#32⟩, _, rfl, by decide⟩, ⟨block 2 idle ⟨false, true, 0x10000#32⟩, _, rfl, by decide⟩,
   ⟨block 2 (regs true .standard 0x03C0C#20 3#6 1 true) ⟨false, true, 0#32⟩, _, rfl, by decide⟩,
   ⟨block 2 idle quiet, _, rfl, by decide⟩⟩

/-- One state for each clause: idle, a half-slot held, a half-slot left at the last one that can be left, and the end of a frame. -/
theorem witness_NoStepSkipsAHalfSlot :
    (∃ s : State, s.atEdge ∧ RegsInv s.params s.regs ∧ s.regs.busy = false) ∧
    (∃ s : State, s.atEdge ∧ RegsInv s.params s.regs ∧ s.input.rst = false ∧ s.regs.busy = true ∧
      cdone s.params s.regs = false) ∧
    (∃ s : State, s.atEdge ∧ RegsInv s.params s.regs ∧ s.input.rst = false ∧ s.regs.busy = true ∧
      cdone s.params s.regs = true ∧ hlast s.regs = false) ∧
    (∃ s : State, s.atEdge ∧ RegsInv s.params s.regs ∧ s.input.rst = false ∧ s.regs.busy = true ∧
      cdone s.params s.regs = true ∧ hlast s.regs = true) :=
  ⟨⟨block 2 idle quiet, by decide, inv_idle 2, by decide⟩,
   ⟨block 2 (regs true .standard 0x03C0C#20 0#6 1 false) quiet, by decide, inv_standard_h0, by decide⟩,
   ⟨block 2 (regs true .standard 0x03C0C#20 26#6 2 true) quiet, by decide, inv_standard_h26, by decide⟩,
   ⟨block 2 (regs true .extended 0xF0301#20 43#6 2 true) quiet, by decide, inv_extended_h43, by decide⟩⟩

theorem witness_StartIgnoredWhileBusy :
    ∃ s : State, s.live = true ∧ s.elements = [] ∧ s.regs.busy = true :=
  ⟨block 2 (regs true .extended 0xF0301#20 43#6 2 true) quiet, by decide⟩

theorem witness_DescHasNoEffectWithoutAccept :
    (∃ s : State, s.live = true ∧ s.elements = [] ∧ s.regs.busy = true) ∧
    (∃ s : State, s.live = true ∧ s.elements = [] ∧ s.regs.busy = false) :=
  ⟨⟨block 2 (regs true .extended 0xF0301#20 43#6 2 true) quiet, by decide⟩, ⟨block 2 idle quiet, by decide⟩⟩

/-- A request of the descriptor 0. -/
def again : Input := ⟨false, true, 0#32⟩

/-- A ready block whose host requests `v` and then presents `n` quiet cycles. -/
def requesting (p n : Nat) (v : Desc) : State :=
  { block p idle quiet with script := .tx v :: (List.replicate n quiet).map Stmt.drive }

/-- With P = 2: the last busy cycle of an Extended frame, and a next request right after the end of a Standard one. -/
theorem witness_FrameTiming :
    ((requesting 1 87 0x100C01#32).ready = true ∧
      (requesting 1 87 0x100C01#32).script = .tx 0x100C01#32 :: (List.replicate 87 quiet).map Stmt.drive ∧
      (∀ i ∈ List.replicate 87 quiet, i.rst = false) ∧ 87 ≤ (List.replicate 87 quiet).length ∧
      87 < halfSlotCount (modeOf 0x100C01#32) * (params 1).P) ∧
    (halfSlotCount (modeOf 0x100C#32) * (params 1).P ≤ (List.replicate 56 quiet ++ [again]).length ∧
      (∀ i ∈ List.replicate 56 quiet ++ [again], i.rst = false) ∧
      (List.replicate 56 quiet ++ [again])[halfSlotCount (modeOf 0x100C#32) * (params 1).P]?
        = some again) := by decide

theorem witness_EqualDescriptorsEqualWaveforms :
    (requesting 1 56 0x100C#32).ready = true ∧
    ({ requesting 1 60 0x100C#32 with regs := regs false .extended 0xF0301#20 0#6 0 false } : State).ready = true ∧
    (∀ i ∈ List.replicate 56 quiet, i.rst = false) ∧ (∀ i ∈ List.replicate 60 quiet, i.rst = false) ∧
    56 ≤ (List.replicate 56 quiet).length ∧ 56 ≤ (List.replicate 60 quiet).length ∧
    56 ≤ halfSlotCount (modeOf 0x100C#32) * (params 1).P := by decide

theorem witness_IdleRegistersAreHidden :
    (block 2 idle ⟨false, true, 0x100C#32⟩).regs.busy = false ∧
    ∃ t, run 1 (block 2 idle ⟨false, true, 0x100C#32⟩) = .next t := ⟨rfl, _, rfl⟩

theorem witness_ElementLevelPlaysTheFrame :
    ∃ s t : State, s.ready = true ∧ s.script = .tx 0x100C01#32 :: .waitIdle 0#32 :: [] ∧ step s = .next t :=
  ⟨{ block 1 idle quiet with script := [.tx 0x100C01#32, .waitIdle 0#32] }, _, rfl, rfl, rfl⟩

/-- The first element of a frame with requests and waits in its cycles, and the pause after the eighth bit. -/
theorem witness_ElementStepIsItsClockEdges :
    (∃ (s s' : State) (i : Instr), s.live = true ∧ 0b11#2 ∉ s.elements ∧ s.playedElement = some (i, s') ∧ s.regs.h = 0#6 ∧
      s'.script = [.cycles 1 0#32, .reset]) ∧
    (∃ (s s' : State) (i : Instr), s.live = true ∧ 0b11#2 ∉ s.elements ∧ s.playedElement = some (i, s') ∧ s.regs.h = 15#6) :=
  ⟨⟨{ player 2 (regs true .standard 0x03C0C#20 0#6 0 false) [0b01#2] with
       script := [.tx 0x1F3F#32, .nop 0#32, .cycles 4 0#32, .reset] }, _, _, by decide, by decide, rfl, by decide, by decide⟩,
   ⟨player 2 (regs true .extended 0xF0301#20 15#6 2 false) [0b10#2], _, _, by decide, by decide, rfl, by decide⟩⟩

theorem witness_SerialisedRequestIsAccepted :
    ∃ s : State, s.live = true ∧ s.input.rst = false ∧ s.input.start = true ∧ s.serialised = true :=
  ⟨block 2 idle ⟨false, true, 0x10000#32⟩, by decide⟩

end Sys2Proof.Tests
end

section
/-! SUPPORT. The parameters and the counters: the conformance bound in rationals, the width of `c`, and where a counter stands short
of its last value (00_scope.md R10, R15). -/

namespace Sys2Proof.Machine

/-- The deviation of `P / F_CLK` from 889 microseconds over the common denominator, whose numerator `Params.conforming` compares. -/
theorem pulse_deviation_eq (p : Params) (hf : 0 < p.fClk) :
    (p.P : ℚ) / (p.fClk : ℚ) - 889 / 1000000 =
      (((p.P : ℤ) * 1000000 - 889 * (p.fClk : ℤ) : ℤ) : ℚ) / (1000000 * (p.fClk : ℚ)) := by
  have hf' : (p.fClk : ℚ) ≠ 0 := by exact_mod_cast hf.ne'
  push_cast
  field_simp

/-- With a running clock, a configuration conforms when that numerator is at most `10 * F_CLK`. -/
theorem conforming_iff_abs_le (p : Params) (hf : 0 < p.fClk) :
    p.conforming = true ↔ |(p.P : ℤ) * 1000000 - 889 * (p.fClk : ℤ)| ≤ 10 * (p.fClk : ℤ) := by
  rw [Params.conforming, Bool.and_eq_true, decide_eq_true_eq, decide_eq_true_eq, Int.abs_eq_natAbs]
  generalize ((p.P : ℤ) * 1000000 - 889 * (p.fClk : ℤ)).natAbs = d
  omega

/-- `Params.conforming` is the bound of 00_scope.md R10. -/
theorem conforming_iff (p : Params) (hf : 0 < p.fClk) :
    p.conforming = true ↔ |(p.P : ℚ) / (p.fClk : ℚ) - 889 / 1000000| ≤ 10 / 1000000 := by
  have hf' : (0 : ℚ) < p.fClk := by exact_mod_cast hf
  have hd : (0 : ℚ) < 1000000 * p.fClk := by positivity
  have hr : 10 / 1000000 * (1000000 * (p.fClk : ℚ)) = ((10 * (p.fClk : ℤ) : ℤ) : ℚ) := by
    push_cast
    ring
  rw [conforming_iff_abs_le p hf, pulse_deviation_eq p hf, abs_div, abs_of_pos hd, div_le_iff₀ hd, hr, ← Int.cast_abs, Int.cast_le]

/-- The number of binary digits of P - 1 is the rounded-up logarithm of P, but for P = 1. -/
theorem cw_eq_max_clog (p : Params) : p.cw = max 1 (Nat.clog 2 p.P) := by
  rw [Params.cw, Nat.log2_eq_log_two, P_eq]
  rcases Nat.eq_zero_or_pos p.pLast with h0 | hpos
  · simp [h0]
  · have hlow : 2 ^ Nat.log 2 p.pLast ≤ p.pLast := Nat.pow_log_le_self 2 hpos.ne'
    have hhigh : p.pLast < 2 ^ (Nat.log 2 p.pLast + 1) := Nat.lt_pow_succ_log_self Nat.one_lt_two _
    have hlt : Nat.log 2 p.pLast < Nat.clog 2 (p.pLast + 1) := (Nat.lt_clog_iff_pow_lt Nat.one_lt_two).2 (by omega)
    have hle : Nat.clog 2 (p.pLast + 1) ≤ Nat.log 2 p.pLast + 1 := (Nat.clog_le_iff_le_pow Nat.one_lt_two).2 hhigh
    omega

/-- P - 1 = 888 of the reference configuration has 10 binary digits. -/
theorem cw_reference : Params.reference.cw = 10 := by
  have hlog : Nat.log 2 888 = 9 := (Nat.log_eq_iff (by decide)).2 (by norm_num)
  rw [Params.cw, Nat.log2_eq_log_two]
  exact congrArg (· + 1) hlog

theorem halfSlotCount_le (m : Mode) : halfSlotCount m ≤ 44 := by
  cases m <;> decide

theorem cdone_eq_false_iff (p : Params) (r : Regs) : cdone p r = false ↔ r.c ≠ p.pLast := by simp [cdone]

theorem hlast_eq_false_iff (r : Regs) : hlast r = false ↔ r.h.toNat ≠ halfSlotCount r.mode - 1 := by simp [hlast]

/-- Inside its half-slot and not in the last cycle of it, the cycle counter counts up. -/
theorem incC_of_not_cdone {p : Params} {r : Regs} (hc : r.c < p.P) (hd : cdone p r = false) : incC p r.c = r.c + 1 := by
  have hne : r.c ≠ p.pLast := (cdone_eq_false_iff p r).1 hd
  rw [P_eq] at hc
  exact incC_eq (by omega)

/-- Inside its frame and not in the last half-slot of it, the half-slot index counts up. -/
theorem incH_of_not_hlast {r : Regs} (hh : r.h.toNat < halfSlotCount r.mode) : (incH r.h).toNat = r.h.toNat + 1 :=
  incH_toNat (by have := halfSlotCount_le r.mode; omega)

end Sys2Proof.Machine
end

section
/-! SUPPORT. The pause among the elements of a frame (40_encoder.md R87, R88). -/

namespace Sys2Proof.Machine

/-- A run of bits holds no pause. -/
theorem count_pause_bits (n : Nat) (g : Nat → Bool) : ((List.range n).map (fun i => Element.bit (g i))).count .pause = 0 :=
  List.count_eq_zero.2 (by simp)

theorem count_pause_standard (f : FrameWord) : (elementsOf .standard f).count .pause = 0 :=
  count_pause_bits 14 _

theorem count_pause_extended (f : FrameWord) : (elementsOf .extended f).count .pause = 1 := by
  simp only [elementsOf, List.count_append, count_pause_bits, List.count_singleton_self]

end Sys2Proof.Machine
end

section
/-! SUPPORT. What an instruction can do to the state, by the three kinds of row: RESET, a clock edge, an element. -/

namespace Sys2Proof.Machine

/-- RESET is a clock edge to the reset values that also makes the host live and empties its model frame; any other row of the
step table is a clock edge, and the last three rows send an element. -/
theorem exec_cases (i : Instr) (s : State) :
    (i = .reset ∧ exec i s = .next { s.clock Regs.reset with live := true, elements := [] }) ∨
      (i ≠ .reset ∧ ¬ (i = .bit0 ∨ i = .bit1 ∨ i = .pause) ∧ ∃ r, exec i s = .next (s.clock r)) ∨
      ((i = .bit0 ∨ i = .bit1 ∨ i = .pause) ∧ ∃ vs, exec i s = .next (s.sendElement vs)) := by
  cases i with
  | reset => exact .inl ⟨rfl, rfl⟩
  | nop | txStd | txExt | hold | advance | finish => exact .inr (.inl ⟨by simp, by simp, _, rfl⟩)
  | bit0 | bit1 | pause => exact .inr (.inr ⟨by simp, _, rfl⟩)

/-- A clock edge runs RESET exactly where a reset is presented. -/
theorem edgeInstr_eq_reset_iff (p : Params) (r : Regs) (i : Input) : edgeInstr p r i = .reset ↔ i.rst = true := by
  unfold edgeInstr
  split_ifs <;> simp_all

/-- A clock edge runs no element row. -/
theorem edgeInstr_not_element (p : Params) (r : Regs) (i : Input) :
    ¬ (edgeInstr p r i = .bit0 ∨ edgeInstr p r i = .bit1 ∨ edgeInstr p r i = .pause) := by
  unfold edgeInstr
  split_ifs <;> simp

/-- At an edge the step is a RESET where one is presented, and otherwise a clock edge of a live machine past the presented input. -/
theorem step_atEdge_cases {s : State} (h : s.atEdge) :
    (s.input.rst = true ∧
        step s = .next { State.clock { s with script := s.presented.2 } Regs.reset with live := true, elements := [] }) ∨
      (s.input.rst = false ∧ s.live = true ∧ ∃ r, step s = .next (State.clock { s with script := s.presented.2 } r)) := by
  have hreset := edgeInstr_eq_reset_iff s.params s.regs s.input
  rw [step_atEdge h]
  rcases exec_cases (edgeInstr s.params s.regs s.input) { s with script := s.presented.2 } with
    ⟨hi, he⟩ | ⟨hi, -, he⟩ | ⟨hi, -⟩
  · exact .inl ⟨hreset.1 hi, he⟩
  · have hr : s.input.rst = false := by simpa [hreset] using hi
    have hl : s.live = true := by
      rcases h with h | ⟨hl, -⟩
      · simp [hr] at h
      · exact hl
    exact .inr ⟨hr, hl, he⟩
  · exact absurd hi (edgeInstr_not_element _ _ _)

end Sys2Proof.Machine
end

section
/-! PROOFS. The statements of 00_scope.md: the conformance bound, the frame constants, the counters, and the model's own fields. -/

namespace Sys2Proof.Machine

/-- Settles O21: the bound over a common denominator is the integer comparison of `Params.conforming`. -/
theorem conformanceBound : Obligations.ConformanceBound :=
  ⟨conforming_iff, P_pos, rfl, rfl, by decide, by norm_num [Params.P, Params.reference]⟩

/-- Settles O22, from the layouts of the two element sequences. -/
theorem frameConstants : Obligations.FrameConstants :=
  ⟨fun f => ⟨elementsOf_standard_length f, elementsOf_extended_length f, count_pause_extended f, count_pause_standard f⟩,
    by decide⟩

/-- Settles O23: while busy, R42 (b) keeps both counters below their last values until `cdone` and `hlast`. -/
theorem countersNeverWrap : Obligations.CountersNeverWrap := by
  refine ⟨fun p => ⟨cw_eq_max_clog p, pLast_lt_two_pow_cw p⟩, cw_reference, halfSlotCount_le, Block.fits, fun s hinv hbusy => ?_⟩
  obtain ⟨hh, hc⟩ := hinv.inFrame hbusy
  exact ⟨incC_of_not_cdone hc, fun _ => incH_of_not_hlast hh⟩

/-- Settles O34, by the three kinds of row and the two kinds of clock edge. -/
theorem modelFieldsAfterAnInstruction : Obligations.ModelFieldsAfterAnInstruction := by
  refine ⟨fun i s => ?_, fun s h => ?_⟩
  · rcases exec_cases i s with ⟨rfl, he⟩ | ⟨hr, hn, r, he⟩ | ⟨hel, vs, he⟩
    · exact ⟨_, he, by simp⟩
    · exact ⟨_, he, by simp [hr, hn]⟩
    · have hr : i ≠ .reset := by rintro rfl; simp at hel
      refine ⟨_, he, by simp, by simp, fun h => absurd h hr, by simp, fun h0 h1 hp => ?_, by simp⟩
      exact absurd hel (by simp [h0, h1, hp])
  · rcases step_atEdge_cases h with ⟨hr, he⟩ | ⟨hr, hl, r, he⟩
    · exact ⟨_, he, by simp [hr]⟩
    · exact ⟨_, he, by simp [hr, hl]⟩

end Sys2Proof.Machine
end

section
/-! SUPPORT. The mode and the frame word of a descriptor, and where each element of a frame stands (40_encoder.md R76, R79, R81,
R84 to R88). -/

namespace Sys2Proof.Machine

/-- The upper half of a descriptor is zero exactly below 65536. -/
theorem upperHalf_eq_zero_iff (v : Desc) : v.extractLsb' 16 16 = 0#16 ↔ v.toNat < 65536 := by
  have hv := v.isLt
  rw [← BitVec.toNat_inj, BitVec.extractLsb'_toNat, Nat.shiftRight_eq_div_pow, BitVec.toNat_ofNat]
  omega

theorem modeOf_eq (v : Desc) : modeOf v = if 65536 ≤ v.toNat then .extended else .standard := by
  simp only [modeOf, bne_iff_ne, ne_eq, upperHalf_eq_zero_iff, not_lt]

theorem encodeFrame_standard {v : Desc} (h : modeOf v = .standard) : encodeFrame v = (assembleStd v).setWidth 20 := by
  simp only [encodeFrame, h]

theorem encodeFrame_extended {v : Desc} (h : modeOf v = .extended) : encodeFrame v = assembleExt v := by
  simp only [encodeFrame, h]

/-- A Standard frame word has 14 bits. -/
theorem encodeFrame_zeroExtended {v : Desc} (h : modeOf v = .standard) : (encodeFrame v).extractLsb' 14 6 = 0#6 := by
  rw [encodeFrame_standard h]
  refine BitVec.eq_of_getLsbD_eq fun k hk => ?_
  simp

theorem encodeFrame_standard_constants {v : Desc} (h : modeOf v = .standard) :
    (encodeFrame v).getLsbD 13 = true ∧ (encodeFrame v).getLsbD 11 = true := by
  rw [encodeFrame_standard h]
  simp only [assembleStd, BitVec.getLsbD_setWidth, BitVec.getLsbD_append]
  exact ⟨rfl, rfl⟩

theorem encodeFrame_extended_constants {v : Desc} (h : modeOf v = .extended) :
    (encodeFrame v).getLsbD 19 = true ∧ (encodeFrame v).getLsbD 17 = true := by
  rw [encodeFrame_extended h]
  simp only [assembleExt, BitVec.getLsbD_append]
  exact ⟨rfl, rfl⟩

section Elements
variable (f : FrameWord) {k : Nat}

theorem elementsOf_standard_bit (hk : k < 14) : (elementsOf .standard f)[k]? = some (.bit (f.getLsbD (13 - k))) := by
  simp [elementsOf, hk]

theorem elementsOf_extended_bit_before_pause (hk : k < 8) :
    (elementsOf .extended f)[k]? = some (.bit (f.getLsbD (19 - k))) := by
  simp [elementsOf, List.getElem?_append, hk]

theorem elementsOf_extended_pause : (elementsOf .extended f)[8]? = some .pause := by
  simp [elementsOf]

theorem elementsOf_extended_bit_after_pause (hk : k < 12) :
    (elementsOf .extended f)[9 + k]? = some (.bit (f.getLsbD (11 - k))) := by
  rw [elementsOf, List.getElem?_append_right (by simp)]
  simp [hk]

end Elements

end Sys2Proof.Machine
end

section
/-! SUPPORT. The levels of the half-slots that an element covers (41_transmitter.md R96, R97, R102). -/

namespace Sys2Proof.Machine

section Level
variable (f : FrameWord) {h : HalfIdx}

theorem level_standard (hh : h.toNat < 28) : level .standard f h = bitHalf (f.getLsbD (13 - h.toNat / 2)) h := by
  simp only [level, hh, if_true]

theorem level_extended_before_pause (hh : h.toNat < 16) :
    level .extended f h = bitHalf (f.getLsbD (19 - h.toNat / 2)) h := by
  simp only [level, hh, if_true]

theorem level_extended_pause (h16 : 16 ≤ h.toNat) (h20 : h.toNat < 20) : level .extended f h = false := by
  simp only [level, not_lt.2 h16, h20, if_false, if_true]

theorem level_extended_after_pause (h20 : 20 ≤ h.toNat) (h44 : h.toNat < 44) :
    level .extended f h = bitHalf (f.getLsbD (11 - (h.toNat - 20) / 2)) h := by
  simp only [level, not_lt.2 h20, h44, show ¬ h.toNat < 16 by omega, if_false, if_true]

end Level

/-- The halves of a bit stand at an even half-slot and the odd one after it. -/
theorem halves_bit_getElem? (b : Bool) {k : Nat} (hk : k < 2) {h : HalfIdx} (hh : h.toNat % 2 = k) :
    (halves (.bit b))[k]? = some (bitHalf b h) := by
  rw [bitHalf_eq, hh]
  interval_cases k <;> rfl

theorem halves_pause_getElem? {k : Nat} (hk : k < 4) : (halves .pause)[k]? = some false := by
  interval_cases k <;> rfl

/-- An element that starts at the even half-slot `j` lies inside its frame, and its halves are the levels of the half-slots from `j`
on. Half-slot 18 of an Extended frame is inside the pause: no element starts there. -/
theorem element_halves_are_levels {m : Mode} {f : FrameWord} {j k : Nat} {e : Element} {h : HalfIdx} (hj : j % 2 = 0)
    (h18 : m = .extended → j ≠ 18) (he : (elementsOf m f)[elementIndex m j]? = some e) (hk : k < (halves e).length)
    (hh : h.toNat = j + k) : h.toNat < halfSlotCount m ∧ (halves e)[k]? = some (level m f h) := by
  have hlen := (List.getElem?_eq_some_iff.1 he).1
  cases m with
  | standard =>
    rw [elementsOf_standard_length] at hlen
    simp only [elementIndex] at he hlen
    rw [elementsOf_standard_bit f hlen] at he
    cases he
    have hk : k < 2 := hk
    refine ⟨show h.toNat < 28 by omega, ?_⟩
    rw [level_standard f (by omega), show h.toNat / 2 = j / 2 by omega]
    exact halves_bit_getElem? _ hk (by omega)
  | extended =>
    rw [elementsOf_extended_length] at hlen
    have h18 := h18 rfl
    rcases Nat.lt_trichotomy j 16 with hlt | rfl | hgt
    · simp only [elementIndex, hlt.le, if_true] at he
      rw [elementsOf_extended_bit_before_pause f (by omega)] at he
      cases he
      have hk : k < 2 := hk
      refine ⟨show h.toNat < 44 by omega, ?_⟩
      rw [level_extended_before_pause f (by omega), show h.toNat / 2 = j / 2 by omega]
      exact halves_bit_getElem? _ hk (by omega)
    · have he : some Element.pause = some e := (elementsOf_extended_pause f).symm.trans he
      cases he
      have hk : k < 4 := hk
      refine ⟨show h.toNat < 44 by omega, ?_⟩
      rw [level_extended_pause f (by omega) (by omega)]
      exact halves_pause_getElem? hk
    · simp only [elementIndex, not_le.2 hgt, if_false] at he hlen
      rw [show j / 2 - 1 = 9 + (j - 20) / 2 by omega, elementsOf_extended_bit_after_pause f (by omega)] at he
      cases he
      have hk : k < 2 := hk
      refine ⟨show h.toNat < 44 by omega, ?_⟩
      rw [level_extended_after_pause f (by omega) (by omega), show (h.toNat - 20) / 2 = (j - 20) / 2 by omega]
      exact halves_bit_getElem? _ hk (by omega)

theorem atElementBoundary_iff (p : Params) (r : Regs) :
    atElementBoundary p r = true ↔
      r.busy = true ∧ r.h.toNat < halfSlotCount r.mode ∧ r.irOut = level r.mode r.frame r.h ∧
        (r.mode = .extended → r.h ≠ 17#6 ∧ r.h ≠ 18#6) ∧ r.c = if r.h.getLsbD 0 then p.pLast else 0 := by
  unfold atElementBoundary
  cases r.h.getLsbD 0 <;> simp [and_assoc, imp_iff_not_or]

/-- The element that an element step sends stops inside its frame, at the level of the half-slot where it stops. -/
theorem elementEnd_in_frame {p : Params} {r : Regs} {e : Element} (hb : atElementBoundary p r = true)
    (he : (remainingElements r).head? = some e) :
    (elementEnd r.h (halves e).length).toNat < halfSlotCount r.mode ∧
      (halves e).getLastD r.irOut = level r.mode r.frame (elementEnd r.h (halves e).length) := by
  obtain ⟨-, hh, -, hpause, -⟩ := (atElementBoundary_iff p r).1 hb
  have hcount := halfSlotCount_le r.mode
  have hstart := elementStart_toNat (show r.h.toNat < 63 by omega)
  have hlen : 1 ≤ (halves e).length ∧ (halves e).length ≤ 4 := by cases e <;> simp [halves]
  have hend := elementEnd_toNat (show r.h.toNat + 4 ≤ 63 by omega) hlen.2
  have h18 : r.mode = .extended → (elementStart r.h).toNat ≠ 18 := fun hm h18 => by
    obtain ⟨h17', h18'⟩ := hpause hm
    rw [ne_eq, ← BitVec.toNat_inj] at h17' h18'
    simp only [BitVec.toNat_ofNat] at h17' h18'
    omega
  rw [remainingElements, List.head?_drop] at he
  obtain ⟨hlt, hlevel⟩ := element_halves_are_levels (k := (halves e).length - 1) (h := elementEnd r.h (halves e).length)
    (by omega) h18 he (by omega) (by omega)
  refine ⟨hlt, ?_⟩
  rw [List.getLastD_eq_getLast?, List.getLast?_eq_getElem?, hlevel]
  rfl

/-- In the last half-slot of a frame no element is left. -/
theorem remainingElements_of_hlast {r : Regs} (h : hlast r = true) : remainingElements r = [] := by
  have hh : r.h.toNat = halfSlotCount r.mode - 1 := by simpa [hlast] using h
  have hcount := halfSlotCount_le r.mode
  have hstart := elementStart_toNat (show r.h.toNat < 63 by omega)
  refine List.drop_eq_nil_of_le ?_
  rw [hstart, hh]
  cases r.mode with
  | standard => exact (elementsOf_standard_length _).le
  | extended => exact (elementsOf_extended_length _).le

end Sys2Proof.Machine
end

section
/-! SUPPORT. What one clock edge and one step do to the registers, a case for each row of the step table (41_transmitter.md R103 to
R111). -/

namespace Sys2Proof.Machine

/-- The registers after a clock edge, with the condition of each row of 30_encoding.md R68. -/
inductive EdgeStep (p : Params) (r : Regs) (i : Input) : Regs → Prop where
  | reset (hrst : i.rst = true) : EdgeStep p r i Regs.reset
  | nop (hrst : i.rst = false) (hbusy : r.busy = false) (hstart : i.start = false) : EdgeStep p r i r
  | accept (hrst : i.rst = false) (hbusy : r.busy = false) (hstart : i.start = true) :
      EdgeStep p r i (acceptRegs (modeOf i.desc) (encodeFrame i.desc))
  | hold (hrst : i.rst = false) (hbusy : r.busy = true) (hcdone : cdone p r = false) :
      EdgeStep p r i { r with c := incC p r.c }
  | advance (hrst : i.rst = false) (hbusy : r.busy = true) (hcdone : cdone p r = true) (hhlast : hlast r = false) :
      EdgeStep p r i { r with h := incH r.h, c := 0, irOut := level r.mode r.frame (incH r.h) }
  | finish (hrst : i.rst = false) (hbusy : r.busy = true) (hcdone : cdone p r = true) (hhlast : hlast r = true) :
      EdgeStep p r i { r with busy := false, h := 0#6, c := 0, irOut := false }

/-- Both accepts load the mode and the frame word of the descriptor. -/
theorem exec_accept (v : Desc) (s : State) :
    exec (if v.extractLsb' 16 16 == 0#16 then .txStd v else .txExt v) s
      = .next (s.clock (acceptRegs (modeOf v) (encodeFrame v))) := by
  by_cases h : v.extractLsb' 16 16 = 0#16
  · have hm : modeOf v = .standard := by simp [modeOf, h]
    rw [encodeFrame_standard hm, hm, h]
    rfl
  · have hm : modeOf v = .extended := by simp [modeOf, h]
    rw [encodeFrame_extended hm, hm, if_neg (by simpa using h)]
    rfl

/-- The instruction of the step word makes one of the row's register changes. -/
theorem exec_edgeInstr (s : State) (i : Input) :
    ∃ t, exec (edgeInstr s.params s.regs i) s = .next t ∧ EdgeStep s.params s.regs i t.regs := by
  unfold edgeInstr
  cases hrst : i.rst
  case true => exact ⟨_, rfl, by simpa using .reset hrst⟩
  cases hbusy : s.regs.busy
  case false =>
    cases hstart : i.start
    case false => exact ⟨_, rfl, by simpa using .nop hrst hbusy hstart⟩
    case true => exact ⟨_, exec_accept i.desc s, by simpa using .accept hrst hbusy hstart⟩
  case true =>
    cases hcdone : cdone s.params s.regs
    case false =>
      refine ⟨_, rfl, ?_⟩
      rw [clock_regs, fit_eq (Nat.mod_lt _ (Nat.two_pow_pos _))]
      exact .hold hrst hbusy hcdone
    case true =>
      cases hhlast : hlast s.regs
      case false => exact ⟨_, rfl, by simpa using .advance hrst hbusy hcdone hhlast⟩
      case true => exact ⟨_, rfl, by simpa using .finish hrst hbusy hcdone hhlast⟩

theorem step_atEdge_regs {s : State} (h : s.atEdge) :
    ∃ t, step s = .next t ∧ EdgeStep s.params s.regs s.input t.regs := by
  rw [step_atEdge h]
  exact exec_edgeInstr { s with script := s.presented.2 } s.input

/-- The registers after an element step from `r`: those of the frame in progress, in the last cycle of the element `e`. -/
structure PlayStep (p : Params) (r : Regs) (i : Input) (e : Element) (r' : Regs) : Prop where
  rst : i.rst = false
  busy : r.busy = true
  boundary : atElementBoundary p r = true
  next : (remainingElements r).head? = some e
  regs : r' = { r with h := elementEnd r.h (halves e).length, c := p.pLast, irOut := (halves e).getLastD r.irOut }

/-- A step changes the registers as a clock edge does or as an element does. -/
theorem step_regs_cases {s t : State} (h : step s = .next t) :
    (s.atEdge ∧ EdgeStep s.params s.regs s.input t.regs) ∨ ∃ e, PlayStep s.params s.regs s.input e t.regs := by
  rcases step_next h with ⟨hedge, -⟩ | ⟨hrst, -, hbusy, -, e, rest, after, -, hnext, hb, -, rfl⟩
  · obtain ⟨u, hu, hregs⟩ := step_atEdge_regs hedge
    cases hu.symm.trans h
    exact .inl ⟨hedge, hregs⟩
  · exact .inr ⟨e, hrst, hbusy, hb, hnext, sendElement_regs _ _⟩

/-- The end of a frame is a clock edge: no element is left to play. -/
theorem PlayStep.not_hlast {p : Params} {r r' : Regs} {i : Input} {e : Element} (h : PlayStep p r i e r') : hlast r = false := by
  by_contra hlast
  have hnone := h.next
  rw [remainingElements_of_hlast (by simpa using hlast)] at hnone
  cases hnone

/-- What a step leaves of the machine's own fields that the invariant speaks of. -/
theorem step_fields {s t : State} (h : step s = .next t) :
    t.params = s.params ∧ t.live = true ∧ t.elements ⊆ s.elements := by
  rcases step_next h with ⟨hedge, -⟩ | ⟨-, hlive, -, -, e, rest, after, helems, -, -, -, rfl⟩
  · rcases step_atEdge_cases hedge with ⟨-, he⟩ | ⟨-, hlive, r, he⟩
    · cases he.symm.trans h
      exact ⟨rfl, rfl, List.nil_subset _⟩
    · cases he.symm.trans h
      exact ⟨rfl, hlive, List.Subset.refl _⟩
  · refine ⟨rfl, hlive, ?_⟩
    rw [helems]
    exact List.subset_cons_self _ _

/-- A presented reset leaves the reset values, a live machine and no model frame. -/
theorem step_of_rst {s : State} (h : s.input.rst = true) :
    ∃ t, step s = .next t ∧ t.regs = Regs.reset ∧ t.live = true ∧ t.elements = [] := by
  rcases step_atEdge_cases (.inl h) with ⟨-, he⟩ | ⟨hrst, -⟩
  · exact ⟨_, he, by simp⟩
  · simp [h] at hrst

end Sys2Proof.Machine
end

section
/-! SUPPORT. The invariants of the reached states (10_state.md R37, R42): they hold after a reset, and every step keeps them. -/

namespace Sys2Proof.Machine

theorem regsInv_reset (p : Params) : RegsInv p Regs.reset where
  idle _ := ⟨rfl, rfl, rfl⟩
  inFrame h := Bool.noConfusion h
  driven h := Bool.noConfusion h
  zeroExtended _ := rfl

theorem halfSlotCount_pos (m : Mode) : 0 < halfSlotCount m := by
  cases m <;> decide

/-- (a) and (b) bound the half-slot index, idle or busy. -/
theorem RegsInv.h_le {p : Params} {r : Regs} (hinv : RegsInv p r) : r.h.toNat ≤ 43 := by
  have hcount := halfSlotCount_le r.mode
  cases hbusy : r.busy
  case false =>
    obtain ⟨-, hh, -⟩ := hinv.idle hbusy
    simp [hh]
  case true =>
    obtain ⟨hh, -⟩ := hinv.inFrame hbusy
    omega

/-- Each row of the step table keeps (a) to (d). -/
theorem EdgeStep.keeps_regsInv {p : Params} {r r' : Regs} {i : Input} (h : EdgeStep p r i r') (hinv : RegsInv p r) : RegsInv p r' := by
  cases h with
  | reset => exact regsInv_reset p
  | nop => exact hinv
  | accept =>
    exact ⟨fun hidle => Bool.noConfusion hidle, fun _ => ⟨halfSlotCount_pos _, P_pos p⟩, fun _ => rfl, encodeFrame_zeroExtended⟩
  | hold _ hbusy hcdone =>
    obtain ⟨hh, hc⟩ := hinv.inFrame hbusy
    have hne := (cdone_eq_false_iff p r).1 hcdone
    refine ⟨fun hidle => ?_, fun _ => ⟨hh, ?_⟩, fun _ => hinv.driven hbusy, hinv.zeroExtended⟩
    · simp [hbusy] at hidle
    · simp only [incC_of_not_cdone hc hcdone]
      rw [P_eq] at hc ⊢
      omega
  | advance _ hbusy _ hhlast =>
    obtain ⟨hh, -⟩ := hinv.inFrame hbusy
    have hne := (hlast_eq_false_iff r).1 hhlast
    refine ⟨fun hidle => ?_, fun _ => ⟨?_, P_pos p⟩, fun _ => rfl, hinv.zeroExtended⟩
    · simp [hbusy] at hidle
    · simp only [incH_of_not_hlast hh]
      omega
  | finish =>
    exact ⟨fun _ => ⟨rfl, rfl, rfl⟩, fun hbusy => Bool.noConfusion hbusy, fun hbusy => Bool.noConfusion hbusy, hinv.zeroExtended⟩

/-- An element step keeps (a) to (d): it stops in the last cycle of a half-slot of the frame, at that half-slot's level. -/
theorem PlayStep.keeps_regsInv {p : Params} {r r' : Regs} {i : Input} {e : Element} (h : PlayStep p r i e r') (hinv : RegsInv p r) :
    RegsInv p r' := by
  obtain ⟨-, hbusy, hb, hnext, rfl⟩ := h
  obtain ⟨hh, hlevel⟩ := elementEnd_in_frame hb hnext
  refine ⟨fun hidle => ?_, fun _ => ⟨hh, Nat.lt_succ_self _⟩, fun _ => hlevel, hinv.zeroExtended⟩
  simp [hbusy] at hidle

theorem step_keeps_regsInv {s t : State} (hinv : RegsInv s.params s.regs) (h : step s = .next t) : RegsInv t.params t.regs := by
  rw [(step_fields h).1]
  rcases step_regs_cases h with ⟨-, hedge⟩ | ⟨e, hplay⟩
  · exact hedge.keeps_regsInv hinv
  · exact hplay.keeps_regsInv hinv

theorem step_keeps_inv {s t : State} (hinv : Inv s) (h : step s = .next t) : Inv t := by
  obtain ⟨-, hlive, helems⟩ := step_fields h
  exact ⟨hlive, step_keeps_regsInv hinv.regs h, fun hmem => hinv.frameCodes (helems hmem)⟩

/-- After a RESET edge the invariant holds, whatever the state before it. -/
theorem inv_after_rst {s t : State} (hrst : s.input.rst = true) (h : step s = .next t) : Inv t := by
  obtain ⟨u, hu, hregs, hlive, helems⟩ := step_of_rst hrst
  cases hu.symm.trans h
  exact ⟨hlive, hregs ▸ regsInv_reset _, by simp [helems]⟩

theorem run_succ {n : Nat} {s t : State} : run (n + 1) s = .next t ↔ ∃ u, step s = .next u ∧ run n u = .next t := by
  rw [run]
  cases step s <;> simp

/-- What every step keeps, every run keeps. -/
theorem run_keeps {I : State → Prop} (hstep : ∀ s t, I s → step s = .next t → I t) :
    ∀ (n : Nat) (s t : State), I s → run n s = .next t → I t
  | 0, s, t, hI, h => by
    cases h
    exact hI
  | n + 1, s, t, hI, h => by
    obtain ⟨u, hu, hrun⟩ := run_succ.1 h
    exact run_keeps hstep n u t (hstep s u hI hu) hrun

/-- Every state reached from a RESET edge meets the invariant. -/
theorem inv_of_reached {n : Nat} {s t : State} (hrst : s.input.rst = true) (h : run (n + 1) s = .next t) : Inv t := by
  obtain ⟨u, hu, hrun⟩ := run_succ.1 h
  exact run_keeps (fun _ _ => step_keeps_inv) n u t (inv_after_rst hrst hu) hrun

theorem constantBits_reset : constantBits Regs.reset := fun hbusy => Bool.noConfusion hbusy

theorem constantBits_acceptRegs (v : Desc) : constantBits (acceptRegs (modeOf v) (encodeFrame v)) := fun _ => by
  simp only [acceptRegs_mode, acceptRegs_frame]
  split
  · next hm => exact encodeFrame_standard_constants hm
  · next hm => exact encodeFrame_extended_constants hm

theorem EdgeStep.keeps_constantBits {p : Params} {r r' : Regs} {i : Input} (h : EdgeStep p r i r') (hbits : constantBits r) :
    constantBits r' := by
  cases h with
  | reset => exact constantBits_reset
  | nop => exact hbits
  | accept => exact constantBits_acceptRegs _
  | hold => exact hbits
  | advance => exact hbits
  | finish => exact fun hbusy => Bool.noConfusion hbusy

end Sys2Proof.Machine
end

section
/-! SUPPORT. The four registers that an idle block does not show (10_state.md R41). -/

namespace Sys2Proof.Machine

/-- `s` with other values in the four registers that no port shows. -/
def State.withHidden (s : State) (m : Mode) (f : FrameWord) (h : HalfIdx) (c : Nat) : State :=
  s.withRegs { s.regs with mode := m, frame := f, h := h, c := c }

section WithHidden
variable (s : State) (m : Mode) (f : FrameWord) (h : HalfIdx) (c : Nat)

@[simp] theorem withHidden_busy : (s.withHidden m f h c).regs.busy = s.regs.busy := rfl
@[simp] theorem withHidden_presented : (s.withHidden m f h c).presented = s.presented := rfl
@[simp] theorem withHidden_input : (s.withHidden m f h c).input = s.input := rfl

theorem withHidden_outputs : (s.withHidden m f h c).outputs = s.outputs := rfl

/-- An edge writes all six registers: what it leaves does not depend on the hidden ones before it. -/
theorem clock_withHidden (after : List Stmt) (r : Regs) :
    State.clock { s.withHidden m f h c with script := after } r = State.clock { s with script := after } r := rfl

/-- A NOP carries the hidden registers along. -/
theorem execNop_withHidden (after : List Stmt) :
    execNop { s.withHidden m f h c with script := after }
      = .next ((State.clock { s with script := after } s.regs).withHidden m f h c) := by
  simp [execNop, State.withHidden, State.clock, State.withRegs, Regs.fit]

end WithHidden

/-- An idle block's edge runs the same instruction whatever the hidden registers hold. -/
theorem edgeInstr_of_idle {p : Params} {r : Regs} {i : Input} (hbusy : r.busy = false) :
    edgeInstr p r i = if i.rst then .reset
      else if i.start then (if i.desc.extractLsb' 16 16 == 0#16 then .txStd i.desc else .txExt i.desc) else .nop := by
  simp only [edgeInstr, hbusy, Bool.false_eq_true, if_false]

/-- An idle block's step does not see the hidden registers: it gives the same outcome, or a NOP that carries them along. -/
theorem step_withHidden {s : State} (hbusy : s.regs.busy = false) (m : Mode) (f : FrameWord) (h : HalfIdx) (c : Nat) :
    step (s.withHidden m f h c) = step s ∨
      s.input.rst = false ∧ s.input.start = false ∧
        ∃ t, step s = .next t ∧ t.regs.busy = false ∧ step (s.withHidden m f h c) = .next (t.withHidden m f h c) := by
  by_cases hedge : s.input.rst = true ∨ s.live = true
  · have hs : s.atEdge := hedge.imp_right fun hlive => ⟨hlive, .inl hbusy⟩
    have hs' : (s.withHidden m f h c).atEdge := hs.imp_right fun ⟨hlive, _⟩ => ⟨hlive, .inl hbusy⟩
    rw [step_atEdge hs, step_atEdge hs', edgeInstr_of_idle hbusy, edgeInstr_of_idle (withHidden_busy s m f h c ▸ hbusy),
      withHidden_input, withHidden_presented]
    cases hrst : s.input.rst
    case true => exact .inl rfl
    cases hstart : s.input.start
    case true => exact .inl (by simp only [Bool.false_eq_true, if_true, if_false, exec_accept, clock_withHidden])
    case false => exact .inr ⟨rfl, rfl, _, rfl, hbusy, execNop_withHidden s m f h c _⟩
  · simp only [not_or, Bool.not_eq_true] at hedge
    obtain ⟨hrst, hlive⟩ := hedge
    exact .inl ((step_beforeFirstReset (s := s.withHidden m f h c) hrst hlive).trans (step_beforeFirstReset hrst hlive).symm)

/-- No run from an idle block shows the hidden registers in an output. -/
theorem run_withHidden (m : Mode) (f : FrameWord) (h : HalfIdx) (c : Nat) :
    ∀ (n : Nat) (s t : State), s.regs.busy = false → run n s = .next t →
      ∃ t', run n (s.withHidden m f h c) = .next t' ∧ t'.outputs = t.outputs
  | 0, s, t, _, hrun => by
    cases hrun
    exact ⟨_, rfl, withHidden_outputs s m f h c⟩
  | n + 1, s, t, hbusy, hrun => by
    obtain ⟨u, hu, hrun⟩ := run_succ.1 hrun
    rcases step_withHidden hbusy m f h c with hsame | ⟨-, -, v, hv, hidle, hstep⟩
    · exact ⟨t, run_succ.2 ⟨u, hsame.trans hu, hrun⟩, rfl⟩
    · cases hv.symm.trans hu
      obtain ⟨t', ht', hout⟩ := run_withHidden m f h c n _ t hidle hrun
      exact ⟨t', run_succ.2 ⟨_, hstep, ht'⟩, hout⟩

end Sys2Proof.Machine
end

section
/-! PROOFS. The statements of 10_state.md: the reset state, the registers, the invariants of the reached states, the ports. -/

namespace Sys2Proof.Machine

/-- Settles O38, by the rows of the step table and an induction over the run from the RESET edge. -/
theorem clockEdgesKeepTheInvariants : Obligations.ClockEdgesKeepTheInvariants :=
  ⟨fun _ _ _ hrst hrun => (inv_of_reached hrst hrun).regs, fun _ _ _ hinv hstep => step_keeps_regsInv hinv hstep⟩

/-- Settles O39, by the rows of the step table and the level at which an element stops. -/
theorem everyStepKeepsInv : Obligations.EveryStepKeepsInv :=
  fun _ _ => step_keeps_inv

/-- Settles O40: only an accept writes the frame being sent, and both layouts hold the constants. -/
theorem constantBitsStayOne : Obligations.ConstantBitsStayOne := fun s t hbits hstep => by
  rcases step_regs_cases hstep with ⟨-, hedge⟩ | ⟨e, hplay⟩
  · exact hedge.keeps_constantBits hbits
  · rw [hplay.regs]
    exact hbits

/-- Settles O42, a row at a time; an element step keeps `busy` and does not start in the last half-slot. -/
theorem busySetAndCleared : Obligations.BusySetAndCleared := fun s t hstep => by
  rcases step_regs_cases hstep with ⟨-, hedge⟩ | ⟨e, hplay⟩
  · generalize t.regs = r at hedge ⊢
    cases hedge with
    | reset hrst => simp [hrst]
    | nop hrst hbusy hstart => simp [hbusy, hrst, hstart]
    | accept hrst hbusy hstart => simp [hrst, hbusy, hstart]
    | hold hrst hbusy hcdone => simp [hrst, hbusy, hcdone]
    | advance hrst hbusy hcdone hhlast => simp [hrst, hbusy, hhlast]
    | finish hrst hbusy hcdone hhlast => simp [hbusy, hcdone, hhlast]
  · have hlast := hplay.not_hlast
    obtain ⟨hrst, hbusy, -, -, hregs⟩ := hplay
    simp [hregs, hrst, hbusy, hlast]

/-- Settles O43, a row at a time; an element step is busy and keeps both. -/
theorem modeAndFrameWritten : Obligations.ModeAndFrameWritten := fun s t hstep => by
  rcases step_regs_cases hstep with ⟨-, hedge⟩ | ⟨e, hrst, hbusy, -, -, hregs⟩
  · generalize t.regs = r at hedge ⊢
    cases hedge with
    | reset hrst => simp [hrst]
    | nop hrst hbusy hstart => simp [hrst, hstart]
    | accept hrst hbusy hstart => simp [hrst, hbusy, hstart]
    | hold hrst hbusy | advance hrst hbusy | finish hrst hbusy => simp [hrst, hbusy]
  · simp [hregs, hrst, hbusy]

/-- Settles O44: the bounds are R42 (b) of the next state, the moves of `h` stand in the rows of the step table. -/
theorem noStepSkipsAHalfSlot : Obligations.NoStepSkipsAHalfSlot := fun s hs hinv => by
  obtain ⟨t, hstep, hedge⟩ := step_atEdge_regs hs
  have hinv' := hedge.keeps_regsInv hinv
  refine ⟨t, hstep, hinv'.h_le, fun hbusy => (hinv'.inFrame hbusy).1, ?_⟩
  generalize t.regs = r at hedge ⊢
  cases hedge with
  | reset hrst => simp [hrst]
  | nop hrst hbusy => simp [hbusy, (hinv.idle hbusy).2.1]
  | accept hrst hbusy => simp [hbusy]
  | hold hrst hbusy hcdone => simp [hrst, hbusy, hcdone]
  | advance hrst hbusy hcdone hhlast =>
    simp [hrst, hbusy, hcdone, hhlast, incH_of_not_hlast (hinv.inFrame hbusy).1]
  | finish hrst hbusy hcdone hhlast => simp [hcdone, hhlast]

/-- Settles O49: an idle step gives the same outcome from both states or carries the hidden registers along, by induction on the
number of steps. -/
theorem idleRegistersAreHidden : Obligations.IdleRegistersAreHidden := fun s m f h c => by
  refine ⟨withHidden_outputs s m f h c, fun hbusy n t => run_withHidden m f h c n s t hbusy, fun hbusy _ hstart => ?_⟩
  rcases step_withHidden hbusy m f h c with hsame | ⟨-, hnostart, -⟩
  · exact hsame
  · simp [hstart] at hnostart

/-- Settles O35. -/
theorem beforeTheFirstResetRefused : Obligations.BeforeTheFirstResetRefused := fun s hlive => by
  refine ⟨fun hrst => step_beforeFirstReset hrst hlive, fun hrst => ?_⟩
  obtain ⟨t, hstep, hregs, hlive', -⟩ := step_of_rst hrst
  exact ⟨t, hstep, hlive', hregs⟩

/-- Settles O36, by the definition of the state after reset. -/
theorem resetStateHasTheResetValues : Obligations.ResetStateHasTheResetValues :=
  ⟨rfl, rfl, rfl⟩

/-- Settles O37: an idle block at Low, with no model frame to follow. -/
theorem invHoldsAtReset : Obligations.InvHoldsAtReset :=
  ⟨⟨rfl, regsInv_reset _, List.not_mem_nil⟩, constantBits_reset⟩

/-- Settles O53, by the mode that the upper half of the descriptor selects. -/
theorem outputsOfACycle : Obligations.OutputsOfACycle := fun s => by
  have hmode := modeOf_eq s.input.desc
  refine ⟨rfl, rfl, ?_, ?_⟩ <;> simp only [State.outputs]
  · rw [hmode]
    split_ifs with hext <;> simp [hext, modeBit]
  · split_ifs at hmode ⊢
    · exact encodeFrame_extended hmode
    · exact encodeFrame_standard hmode

end Sys2Proof.Machine
end

section
/-! SUPPORT. A cycle that the host drives, and which of its inputs a clock edge's instruction depends on (20_memory.md R52,
41_transmitter.md R110). -/

namespace Sys2Proof.Machine

/-- A driven cycle of a live machine that follows no model frame is one clock edge past that cycle's statement. -/
theorem step_drive {s : State} (hlive : s.live = true) (helems : s.elements = []) (i : Input) (rest : List Stmt) :
    step { s with script := .drive i :: rest } = exec (edgeInstr s.params s.regs i) { s with script := rest } :=
  step_atEdge (s := { s with script := .drive i :: rest }) (atEdge_of_no_elements hlive helems)

/-- A reset edge runs RESET whatever else is presented. -/
theorem edgeInstr_of_rst {p : Params} {r : Regs} {i : Input} (hrst : i.rst = true) : edgeInstr p r i = .reset :=
  (edgeInstr_eq_reset_iff p r i).2 hrst

/-- Of the inputs, a busy block's edge sees `rst` alone. -/
theorem edgeInstr_of_busy {p : Params} {r : Regs} {i : Input} (hbusy : r.busy = true) :
    edgeInstr p r i = if i.rst then .reset else if cdone p r then (if hlast r then .finish else .advance) else .hold := by
  simp only [edgeInstr, hbusy, if_true]

/-- Only an accept has the descriptor in its instruction. -/
theorem edgeInstr_desc_irrelevant {p : Params} {r : Regs} {rst start : Bool} (h : r.busy = true ∨ start = false ∨ rst = true)
    (v w : Desc) : edgeInstr p r ⟨rst, start, v⟩ = edgeInstr p r ⟨rst, start, w⟩ := by
  cases hbusy : r.busy
  case true => rw [edgeInstr_of_busy hbusy, edgeInstr_of_busy hbusy]
  case false =>
    rcases h with hbusy' | rfl | rfl
    · simp [hbusy] at hbusy'
    · simp only [edgeInstr_of_idle hbusy, Bool.false_eq_true, if_false]
    · rw [edgeInstr_of_rst rfl, edgeInstr_of_rst rfl]

end Sys2Proof.Machine
end

section
/-! PROOFS. The statement of 20_memory.md: the request inputs have no effect but at an accept. -/

namespace Sys2Proof.Machine

/-- Settles O46: each pair of edges runs one and the same instruction on one and the same state. -/
theorem descHasNoEffectWithoutAccept : Obligations.DescHasNoEffectWithoutAccept := fun s r b v w rest hlive helems => by
  simp only [step_drive hlive helems]
  refine ⟨fun hnone => ?_, fun hbusy => ?_, rfl⟩
  · obtain ⟨t, ht⟩ := exec_next (edgeInstr s.params s.regs ⟨r, b, v⟩) { s with script := rest }
    exact ⟨t, ht, edgeInstr_desc_irrelevant hnone v w ▸ ht⟩
  · simp only [edgeInstr_of_busy hbusy, and_self]
    exact exec_next _ _

end Sys2Proof.Machine
end

section
/-! SUPPORT. The decoder on whole words: the masks of the step table as tests of single bits, the words of the encoder, and what
an answer of the decoder looks like (30_encoding.md R66 to R69). -/

namespace Sys2Proof
open Machine

section Masks
variable (d : StepWord)

theorem masked_reset_iff : d &&& 0x1000000000#37 = 0x1000000000#37 ↔ d.getLsbD 36 = true := by
  rw [← beq_iff_eq, row_reset]

theorem masked_nop_iff :
    d &&& 0x1C00000000#37 = 0#37 ↔ d.getLsbD 36 = false ∧ d.getLsbD 35 = false ∧ d.getLsbD 34 = false := by
  rw [← beq_iff_eq, row_nop]
  simp [and_assoc]

theorem masked_txStd_iff :
    d &&& 0x1CFFFF0000#37 = 0x0400000000#37 ↔
      (d.getLsbD 36 = false ∧ d.getLsbD 35 = false ∧ d.getLsbD 34 = true) ∧ (StepWord.desc d).extractLsb' 16 16 = 0#16 := by
  rw [← beq_iff_eq, row_txStd]
  simp [and_assoc]

theorem masked_txExt_iff :
    d &&& 0x1C00000000#37 = 0x0400000000#37 ↔ d.getLsbD 36 = false ∧ d.getLsbD 35 = false ∧ d.getLsbD 34 = true := by
  rw [← beq_iff_eq, row_txExt]
  simp [and_assoc]

theorem masked_hold_iff :
    d &&& 0x1A00000000#37 = 0x0800000000#37 ↔ d.getLsbD 36 = false ∧ d.getLsbD 35 = true ∧ d.getLsbD 33 = false := by
  rw [← beq_iff_eq, row_hold]
  simp [and_assoc]

theorem masked_advance_iff :
    d &&& 0x1B00000000#37 = 0x0A00000000#37 ↔
      d.getLsbD 36 = false ∧ d.getLsbD 35 = true ∧ d.getLsbD 33 = true ∧ d.getLsbD 32 = false := by
  rw [← beq_iff_eq, row_advance]
  simp [and_assoc]

theorem masked_finish_iff :
    d &&& 0x1B00000000#37 = 0x0B00000000#37 ↔
      d.getLsbD 36 = false ∧ d.getLsbD 35 = true ∧ d.getLsbD 33 = true ∧ d.getLsbD 32 = true := by
  rw [← beq_iff_eq, row_finish]
  simp [and_assoc]

end Masks

/-- The five bits above the descriptor and the descriptor are the whole step word. -/
theorem stepWord_ext {d d' : StepWord} (h36 : d.getLsbD 36 = d'.getLsbD 36) (h35 : d.getLsbD 35 = d'.getLsbD 35)
    (h34 : d.getLsbD 34 = d'.getLsbD 34) (h33 : d.getLsbD 33 = d'.getLsbD 33) (h32 : d.getLsbD 32 = d'.getLsbD 32)
    (hdesc : StepWord.desc d = StepWord.desc d') : d = d' := by
  refine BitVec.eq_of_getLsbD_eq fun k hk => ?_
  by_cases hlow : k < 32
  · simpa [StepWord.desc, hlow] using congrArg (fun v => v.getLsbD k) hdesc
  · have hhigh := not_lt.1 hlow
    interval_cases k
    exacts [h32, h33, h34, h35, h36]

/-- An accept's word decodes to the accept that its descriptor's upper half selects. -/
theorem decode_accept_word (v : Desc) :
    decode (.edge (0x0400000000#37 ||| v.setWidth 37))
      = .ok (if v.extractLsb' 16 16 == 0#16 then .txStd v else .txExt v) := by
  obtain ⟨h36, h35, h34⟩ := Laws.upper_bits_of_accept_word v
  simp only [decode, decodeStep_eq, h36, h35, h34, Laws.desc_of_accept_word, Bool.false_eq_true, if_false, if_true]

theorem decode_encode {i : Instr} (h : i.wellFormed = true) : decode (encode i) = .ok i := by
  cases i with
  | txStd v =>
    rw [encode, decode_accept_word, if_pos (by simpa [Instr.wellFormed] using h)]
  | txExt v =>
    rw [encode, decode_accept_word, if_neg (by simpa [Instr.wellFormed] using h)]
  | reset | nop | hold | advance | finish => simp [encode, decode, decodeStep_eq]
  | bit0 | bit1 | pause => rfl

/-- A code that decodes is the code of an element. -/
theorem exists_elementCode_of_decode {c : ElementCode} {i : Instr} (h : decode (.element c) = .ok i) :
    ∃ e, elementCode e = c := by
  rcases decodeElement_cases c with ⟨rfl, -⟩ | ⟨rfl, -⟩ | ⟨rfl, -⟩ | ⟨-, he⟩
  · exact ⟨.bit false, rfl⟩
  · exact ⟨.bit true, rfl⟩
  · exact ⟨.pause, rfl⟩
  · cases he.symm.trans h

/-- The decoder checks the format selection before it answers an accept. -/
theorem wellFormed_of_decode {w : RawWord} {i : Instr} (h : decode w = .ok i) : i.wellFormed = true := by
  cases w with
  | edge d =>
    rw [decode, decodeStep_eq] at h
    injection h with h
    subst h
    split_ifs with _ _ _ _ _ hstd
    iterate 4 · rfl
    · exact hstd
    · simpa only [Instr.wellFormed, bne_iff_ne, beq_iff_eq] using hstd
    · rfl
  | element e =>
    obtain ⟨e, rfl⟩ := exists_elementCode_of_decode h
    rcases e with (_ | _) | _ <;> · cases h; rfl

theorem elementCode_ne_reserved (e : Element) : elementCode e ≠ 0b11#2 := by
  rcases e with (_ | _) | _ <;> decide

theorem decode_rawTableWord {nbits w : Nat} {i : Instr} (h : decodeTableWord nbits w = some i) :
    decode (rawTableWord nbits w) = .ok i := by
  unfold decodeTableWord at h
  split at h
  · next hd => rw [hd, Option.some.inj h]
  · cases h

end Sys2Proof
end

section
/-! SUPPORT. The states in which the host places a word: the step after them fetches that word (30_encoding.md R66, R67, log 9). -/

namespace Sys2Proof.Machine

section StepWord
variable (s : State) (d : StepWord)

theorem withStepBits_c_lt (p : Params) {r : Regs} (hc : r.c < 2 ^ p.cw) (busy cdone hlast : Bool) :
    (r.withStepBits p busy cdone hlast).c < 2 ^ p.cw := by
  have hlast := pLast_lt_two_pow_cw p
  have hone : 1 < 2 ^ p.cw := Nat.one_lt_two_pow (Nat.succ_ne_zero _)
  simp only [Regs.withStepBits]
  split_ifs <;> omega

theorem withStepWord_regs :
    (s.withStepWord d).regs = s.regs.withStepBits s.params (d.getLsbD 35) (d.getLsbD 33) (d.getLsbD 32) :=
  fit_eq (withStepBits_c_lt s.params s.fits _ _ _)

theorem cdone_withStepBits (p : Params) (r : Regs) (busy cdone hlast : Bool) :
    Machine.cdone p (r.withStepBits p busy cdone hlast) = cdone := by
  cases cdone with
  | true => simp [Machine.cdone, Regs.withStepBits]
  | false =>
    rw [cdone_eq_false_iff]
    simp only [Regs.withStepBits, Bool.false_eq_true, if_false]
    split_ifs with hne
    · simpa using hne
    · omega
    · omega

theorem hlast_withStepBits (p : Params) (r : Regs) (busy cdone hlast : Bool) :
    Machine.hlast (r.withStepBits p busy cdone hlast) = hlast := by
  have hcount := halfSlotCount_le r.mode
  cases hlast with
  | true =>
    simp only [Machine.hlast, Regs.withStepBits, if_true, BitVec.toNat_ofNat, beq_iff_eq]
    omega
  | false =>
    rw [hlast_eq_false_iff]
    simp only [Regs.withStepBits, Bool.false_eq_true, if_false]
    split_ifs with hne
    · simpa using hne
    · cases r.mode <;> decide

theorem withStepWord_presented :
    (s.withStepWord d).presented = (⟨d.getLsbD 36, d.getLsbD 34, StepWord.desc d⟩, s.script) := rfl

/-- The placed state has the placed word as its step word. -/
theorem stepWord_withStepWord :
    stepWord s.params (s.withStepWord d).regs (s.withStepWord d).input = d := by
  rw [State.input, withStepWord_presented, withStepWord_regs]
  refine stepWord_ext (stepWord_rst _ _ _) (stepWord_busy _ _ _) (stepWord_start _ _ _) ?_ ?_ (stepWord_desc _ _ _)
  · rw [stepWord_cdone, cdone_withStepBits]
  · rw [stepWord_hlast, hlast_withStepBits]

theorem step_withStepWord {i : Instr} (h : decode (.edge d) = .ok i) :
    step (s.withStepWord d) = exec i { s.withStepWord d with script := s.script } := by
  have hword := decode_stepWord s.params (s.withStepWord d).regs (s.withStepWord d).input
  rw [stepWord_withStepWord, h] at hword
  injection hword with hi
  rw [step_atEdge (atEdge_of_no_elements rfl rfl), withStepWord_presented, hi]
  rfl

end StepWord

section Element
variable (s : State)

theorem getLsbD_setBit (f : FrameWord) {k : Nat} (hk : k < 20) (b : Bool) : (FrameWord.setBit f k b).getLsbD k = b := by
  cases b <;> simp [FrameWord.setBit, hk]

theorem withElementNext_pause (r : Regs) :
    r.withElementNext (elementCode .pause) = { r with busy := true, mode := .extended, h := 16#6, c := 0, irOut := false } :=
  if_pos (by decide)

/-- The bit of the frame word that element 3 sends, after S1, S2 and the toggle. -/
def element3Bit : Mode → Nat
  | .standard => 10
  | .extended => 16

theorem withElementNext_bit (r : Regs) (b : Bool) :
    r.withElementNext (elementCode (.bit b)) =
      { r with busy := true, frame := FrameWord.setBit r.frame (element3Bit r.mode) b, h := 6#6, c := 0, irOut := !b } := by
  obtain ⟨busy, m, f, h, c, v⟩ := r
  cases b <;> cases m <;> rfl

theorem elementsOf_element3Bit (m : Mode) (f : FrameWord) : (elementsOf m f)[3]? = some (.bit (f.getLsbD (element3Bit m))) := by
  cases m with
  | standard => exact elementsOf_standard_bit f (by decide)
  | extended => exact elementsOf_extended_bit_before_pause f (by decide)

/-- The placed registers are in the first cycle of an element with the placed code. -/
theorem withElementNext_at_element (p : Params) (r : Regs) (e : Element) :
    (remainingElements (r.withElementNext (elementCode e))).head? = some e ∧
      atElementBoundary p (r.withElementNext (elementCode e)) = true := by
  rw [remainingElements, List.head?_drop, atElementBoundary_iff]
  cases e with
  | pause =>
    have hstart : elementStart 16#6 = 16#6 := by decide
    rw [withElementNext_pause, hstart]
    exact ⟨elementsOf_extended_pause r.frame, rfl, show 16 < 44 by decide, rfl, by simp, (if_neg (by simp)).symm⟩
  | bit b =>
    have hstart : elementStart 6#6 = 6#6 := by decide
    have hindex : elementIndex r.mode 6 = 3 := by cases r.mode <;> rfl
    have he := elementsOf_element3Bit r.mode (FrameWord.setBit r.frame (element3Bit r.mode) b)
    rw [getLsbD_setBit _ (by cases r.mode <;> decide), ← hindex] at he
    obtain ⟨hh, hlevel⟩ := element_halves_are_levels (k := 0) (h := 6#6) (by decide) (by simp) he (by simp [halves]) rfl
    rw [withElementNext_bit, hstart]
    exact ⟨he, rfl, hh, Option.some.inj hlevel, by simp, (if_neg (by simp)).symm⟩

theorem withElement_regs (c : ElementCode) : (s.withElement c).regs = s.regs.withElementNext c := by
  refine fit_eq ?_
  simp only [Regs.withElementNext]
  split_ifs <;> exact Nat.two_pow_pos _

theorem withElement_input_rst (e : Element) : (s.withElement (elementCode e)).input.rst = false := by
  have hbusy : (s.withElement (elementCode e)).regs.busy = true := by
    rw [withElement_regs]
    exact ((atElementBoundary_iff s.params _).1 (withElementNext_at_element s.params s.regs e).2).1
  rw [State.input, State.presented, hbusy]
  rfl

/-- The placed element is played: the placed registers are at it, the model frame names it, and the host waits. -/
theorem step_withElement {e : Element} {i : Instr} (h : decode (.element (elementCode e)) = .ok i) :
    step (s.withElement (elementCode e)) = exec i { s.withElement (elementCode e) with elements := [] } := by
  obtain ⟨hnext, hb⟩ := withElementNext_at_element s.params s.regs e
  rw [← withElement_regs] at hnext hb
  obtain ⟨hbusy, -⟩ := (atElementBoundary_iff _ _).1 hb
  have hcode : 0b11#2 ∉ [elementCode e] := by simpa using (elementCode_ne_reserved e).symm
  exact step_element (withElement_input_rst s e) rfl hbusy hcode
    (playedElement_eq_some.2 ⟨e, [], _, rfl, hnext, hb, passQuiet_waitIdle _ _ _, h, rfl⟩)

end Element

/-- A placed word that decodes is what the next step runs, on the placed registers and with no element left. -/
theorem step_withRawWord (s : State) {w : RawWord} {i : Instr} (h : decode w = .ok i) :
    ∃ u : State, u.regs = (s.withRawWord w).regs ∧ u.params = s.params ∧ u.live = true ∧ u.elements = [] ∧
      step (s.withRawWord w) = exec i u := by
  cases w with
  | edge d => exact ⟨{ s.withStepWord d with script := s.script }, rfl, rfl, rfl, rfl, step_withStepWord s d h⟩
  | element c =>
    obtain ⟨e, rfl⟩ := exists_elementCode_of_decode h
    exact ⟨{ s.withElement (elementCode e) with elements := [] }, rfl, rfl, rfl, rfl, step_withElement s h⟩

end Sys2Proof.Machine
end

section
/-! SUPPORT. The bits of a descriptor that its frame word reads (30_encoding.md R58, R59, R62). -/

namespace Sys2Proof.Machine
variable (v : Desc)

section Masked
variable {mask : Desc}

/-- A mask of ones over a field leaves the field as it is. -/
theorem commandByte_masked {m : Mode} (hmask : commandByte m mask = BitVec.allOnes 8) :
    commandByte m (v &&& mask) = commandByte m v := by
  have hand : commandByte m (v &&& mask) = commandByte m v &&& commandByte m mask := by
    cases m <;> exact BitVec.extractLsb'_and
  rw [hand, hmask, BitVec.and_allOnes]

theorem sys5_masked {m : Mode} (hmask : sys5 (systemByte m mask) = BitVec.allOnes 5) :
    sys5 (systemByte m (v &&& mask)) = sys5 (systemByte m v) := by
  have hand : systemByte m (v &&& mask) = systemByte m v &&& systemByte m mask := by
    cases m <;> exact BitVec.extractLsb'_and
  rw [hand, sys5, BitVec.extractLsb'_and, ← sys5, ← sys5, hmask, BitVec.and_allOnes]

theorem data6_masked (hmask : data6 (dataByte mask) = BitVec.allOnes 6) : data6 (dataByte (v &&& mask)) = data6 (dataByte v) := by
  rw [dataByte, BitVec.extractLsb'_and, ← dataByte, ← dataByte, data6, BitVec.extractLsb'_and, ← data6, ← data6, hmask,
    BitVec.and_allOnes]

end Masked

/-- The Standard frame word reads `desc[12:0]` alone. -/
theorem assembleStd_masked : assembleStd (v &&& 0x1FFF#32) = assembleStd v := by
  rw [assembleStd, assembleStd, commandByte_masked v (by decide), sys5_masked v (by decide)]

/-- The Extended frame word reads `desc[20:16]`, `desc[15:8]` and `desc[5:0]` alone. -/
theorem assembleExt_masked : assembleExt (v &&& 0x1FFF3F#32) = assembleExt v := by
  rw [assembleExt, assembleExt, commandByte_masked v (by decide), sys5_masked v (by decide), data6_masked v (by decide)]

end Sys2Proof.Machine
end

section
/-! SUPPORT. The cycles of a CYCLES and of a WAIT_IDLE statement (30_encoding.md R72). -/

namespace Sys2Proof.Machine
variable (d : Desc) (rest : List Stmt)

theorem presentN_cycles (n : Nat) (busy : Bool) :
    presentN n (.cycles n d :: rest) busy = some (List.replicate n ⟨false, false, d⟩, .cycles 0 d :: rest) := by
  induction n with
  | zero => rfl
  | succ n ih => simp only [presentN, present, ih, List.replicate_succ]

theorem presentN_waitIdle (n : Nat) :
    presentN n (.waitIdle d :: rest) true = some (List.replicate n ⟨false, false, d⟩, .waitIdle d :: rest) := by
  induction n with
  | zero => rfl
  | succ n ih => simp only [presentN, present, ih, List.replicate_succ]

end Sys2Proof.Machine
end

section
/-! PROOFS. The statements of 30_encoding.md: the words of the instructions, the step table, the placed word, the element codes, the
ignored bits of a descriptor, and the host script. -/

namespace Sys2Proof.Machine

/-- Settles O3: an accept's word holds its descriptor whole, and every other instruction has one word. -/
theorem decodeOfEncodeIsIdentity : Obligations.DecodeOfEncodeIsIdentity :=
  fun _ => decode_encode

/-- Settles O4: the decoder answers only well-formed instructions, and those have O3. -/
theorem decoderAnswersWellFormed : Obligations.DecoderAnswersWellFormed := fun _ _ h =>
  ⟨wellFormed_of_decode h, decode_encode (wellFormed_of_decode h)⟩

/-- Settles O5, with each mask as a test of the bits above the descriptor, and the decoder as a decision on them. -/
theorem everyStepWordHasItsRow : Obligations.EveryStepWordHasItsRow := fun d => by
  simp only [masked_reset_iff, masked_nop_iff, masked_txStd_iff, masked_txExt_iff, masked_hold_iff, masked_advance_iff,
    masked_finish_iff, ne_eq, decode, decodeStep_eq]
  refine ⟨fun h36 => by rw [h36]; rfl, fun _ => ⟨?nop, ?txStd, ?txExt, ?hold, ?advance, ?finish⟩, ?somerow⟩
  case nop =>
    rintro ⟨h36, h35, h34⟩
    rw [h36, h35, h34]
    rfl
  case txStd =>
    rintro ⟨⟨h36, h35, h34⟩, hupper⟩
    rw [h36, h35, h34, hupper]
    rfl
  case txExt =>
    rintro hnot ⟨h36, h35, h34⟩
    have hupper : (StepWord.desc d).extractLsb' 16 16 ≠ 0#16 := fun h0 => hnot ⟨⟨h36, h35, h34⟩, h0⟩
    rw [h36, h35, h34, beq_eq_false_iff_ne.2 hupper]
    exact ⟨hupper, rfl⟩
  case hold =>
    rintro ⟨h36, h35, h33⟩
    rw [h36, h35, h33]
    rfl
  case advance =>
    rintro ⟨h36, h35, h33, h32⟩
    rw [h36, h35, h33, h32]
    rfl
  case finish =>
    rintro ⟨h36, h35, h33, h32⟩
    rw [h36, h35, h33, h32]
    rfl
  case somerow =>
    cases d.getLsbD 36
    case true => simp
    cases d.getLsbD 35
    case false => cases d.getLsbD 34 <;> simp
    cases d.getLsbD 33
    case false => simp
    cases d.getLsbD 32 <;> simp

/-- Settles O6: the placed state has the placed step word, or is at an element with the placed code. -/
theorem withFetchWordRunsTheWord : Obligations.WithFetchWordRunsTheWord := fun s _ _ _ h =>
  step_withRawWord s (decode_rawTableWord h)

/-- Settles O14: each frame word reads only the bits of its mask. -/
theorem ignoredDescriptorBits : Obligations.IgnoredDescriptorBits := fun v w => by
  refine ⟨fun hv hw hmask => ?_, fun hv hw hmask => ?_⟩
  · rw [encodeFrame_standard hv, encodeFrame_standard hw, ← assembleStd_masked v, hmask, assembleStd_masked w]
  · rw [encodeFrame_extended hv, encodeFrame_extended hw, ← assembleExt_masked v, hmask, assembleExt_masked w]

/-- Settles O2, each word by evaluation. -/
theorem writtenWordsDecode : Obligations.WrittenWordsDecode := by
  unfold Obligations.WrittenWordsDecode
  decide

/-- Settles O7: no element has the reserved code, and the fetch refuses a model frame that holds it. -/
theorem reservedElementCodeRefused : Obligations.ReservedElementCodeRefused := by
  refine ⟨rfl, rfl, rfl, rfl, rfl, rfl, fun v hmem => ?_, fun _ hrst hlive hbusy hmem => step_reserved hrst hlive hbusy hmem⟩
  obtain ⟨e, -, he⟩ := List.mem_map.1 hmem
  exact elementCode_ne_reserved e he

/-- Settles O52, a statement at a time; CYCLES and WAIT_IDLE by induction on the number of cycles. -/
theorem scriptPresentsItsStatements : Obligations.ScriptPresentsItsStatements := fun rest busy _ d n =>
  ⟨rfl, rfl, rfl, presentN_cycles d rest n busy, rfl, presentN_waitIdle d rest n, rfl, rfl⟩

end Sys2Proof.Machine
end

section
/-! SUPPORT. The mode and the bytes of a descriptor and the fields of its frame word as numbers (40_encoder.md R76 to R78, R80, R82,
R84, R85). -/

namespace Sys2Proof.Machine

/-- Bit strings side by side, as a number in base two. -/
theorem toNat_append_eq_add {m n : Nat} (x : BitVec m) (y : BitVec n) : (x ++ y).toNat = x.toNat * 2 ^ n + y.toNat := by
  rw [BitVec.toNat_append, ← Nat.shiftLeft_add_eq_or_of_lt y.isLt, Nat.shiftLeft_eq]

section Mode
variable {v : Desc}

theorem modeOf_eq_extended_iff : modeOf v = .extended ↔ 65536 ≤ v.toNat := by
  rw [modeOf_eq]
  split_ifs with h <;> simp [h]

theorem modeOf_eq_standard_iff : modeOf v = .standard ↔ v.toNat < 65536 := by
  rw [modeOf_eq, ← not_le]
  split_ifs with h <;> simp [h]

end Mode

section Bytes
variable (v : Desc)

theorem systemByte_standard_toNat : (systemByte .standard v).toNat = v.toNat / 256 % 256 := by
  rw [systemByte, BitVec.extractLsb'_toNat, Nat.shiftRight_eq_div_pow]

theorem commandByte_standard_toNat : (commandByte .standard v).toNat = v.toNat % 256 := by
  rw [commandByte, BitVec.extractLsb'_toNat, Nat.shiftRight_zero]

theorem systemByte_extended_toNat : (systemByte .extended v).toNat = v.toNat / 65536 % 256 := by
  rw [systemByte, BitVec.extractLsb'_toNat, Nat.shiftRight_eq_div_pow]

theorem commandByte_extended_toNat : (commandByte .extended v).toNat = v.toNat / 256 % 256 := by
  rw [commandByte, BitVec.extractLsb'_toNat, Nat.shiftRight_eq_div_pow]

theorem dataByte_toNat : (dataByte v).toNat = v.toNat % 256 := by
  rw [dataByte, BitVec.extractLsb'_toNat, Nat.shiftRight_zero]

end Bytes

section Fields
variable (b : BitVec 8)

theorem sys5_eq_ofNat : sys5 b = BitVec.ofNat 5 b.toNat := rfl

theorem cmd6_eq_ofNat : cmd6 b = BitVec.ofNat 6 b.toNat := rfl

theorem data6_eq_ofNat : data6 b = BitVec.ofNat 6 b.toNat := rfl

theorem sys5_toNat : (sys5 b).toNat = b.toNat % 32 := by
  rw [sys5_eq_ofNat, BitVec.toNat_ofNat]

theorem cmd6_toNat : (cmd6 b).toNat = b.toNat % 64 := by
  rw [cmd6_eq_ofNat, BitVec.toNat_ofNat]

theorem data6_toNat : (data6 b).toNat = b.toNat % 64 := by
  rw [data6_eq_ofNat, BitVec.toNat_ofNat]

theorem s2_getLsbD : (s2 b).getLsbD 0 = decide (b.toNat < 64) := by
  rw [s2, BitVec.getLsbD_ofBool, BitVec.ult]
  rfl

theorem s2_toNat : (s2 b).toNat = if b.toNat < 64 then 1 else 0 := by
  rw [s2, BitVec.toNat_ofBool, BitVec.ult]
  exact Bool.cond_decide _ _ _

theorem s2_eq_one_iff : s2 b = 1#1 ↔ b.toNat < 64 := by
  rw [← BitVec.toNat_inj, s2_toNat]
  split_ifs with h <;> simp [h]

/-- Below 128 a command byte is its 7-bit command (40_encoder.md R91). -/
theorem toNat_eq_of_s2_cmd6 (h : b.toNat < 128) : b.toNat = (if s2 b = 1#1 then 0 else 64) + (cmd6 b).toNat := by
  rw [cmd6_toNat]
  simp only [s2_eq_one_iff]
  split_ifs <;> omega

end Fields

/-- The frame word of TX_STD as the sum of its fields. -/
theorem encodeFrame_standard_toNat {v : Desc} (h : modeOf v = .standard) :
    (encodeFrame v).toNat = 8192 + (s2 (commandByte .standard v)).toNat * 4096 + 2048
      + (sys5 (systemByte .standard v)).toNat * 64 + (cmd6 (commandByte .standard v)).toNat := by
  rw [encodeFrame_standard h, BitVec.toNat_setWidth_of_le (by decide)]
  simp only [assembleStd, toNat_append_eq_add, s1, toggle, BitVec.toNat_ofNat]
  omega

/-- The frame word of TX_EXT as the sum of its fields. -/
theorem encodeFrame_extended_toNat {v : Desc} (h : modeOf v = .extended) :
    (encodeFrame v).toNat = 524288 + (s2 (commandByte .extended v)).toNat * 262144 + 131072
      + (sys5 (systemByte .extended v)).toNat * 4096 + (cmd6 (commandByte .extended v)).toNat * 64
      + (data6 (dataByte v)).toNat := by
  rw [encodeFrame_extended h]
  simp only [assembleExt, toNat_append_eq_add, s1, toggle, BitVec.toNat_ofNat]
  omega

end Sys2Proof.Machine
end

section
/-! SUPPORT. Where the fields of a descriptor stand in its frame word, and what a frame word tells of them (40_encoder.md R84, R85,
R91). -/

namespace Sys2Proof.Machine

/-- The position of the lowest bit of `cmd6` in a frame word: below it an Extended word has `data6`. Above it both words have
`sys5`, the toggle and S2. -/
def commandPosition : Mode → Nat
  | .standard => 0
  | .extended => 6

section Positions
variable (v : Desc)

/-- From `cmd6` up the frame words of both modes are the same 14 bits. -/
theorem encodeFrame_shiftRight :
    (encodeFrame v).toNat >>> commandPosition (modeOf v) = 8192 + (s2 (commandByte (modeOf v) v)).toNat * 4096 + 2048
      + (sys5 (systemByte (modeOf v) v)).toNat * 64 + (cmd6 (commandByte (modeOf v) v)).toNat := by
  cases h : modeOf v with
  | standard => rw [encodeFrame_standard_toNat h, commandPosition, Nat.shiftRight_zero]
  | extended =>
    have hdata := (data6 (dataByte v)).isLt
    rw [encodeFrame_extended_toNat h, commandPosition, Nat.shiftRight_eq_div_pow]
    omega

variable {v} {m : Mode}

theorem encodeFrame_cmd6 (hm : modeOf v = m) :
    (encodeFrame v).extractLsb' (commandPosition m) 6 = cmd6 (commandByte m v) := by
  subst hm
  have hcmd := (cmd6 (commandByte (modeOf v) v)).isLt
  refine BitVec.eq_of_toNat_eq ?_
  rw [BitVec.extractLsb'_toNat, encodeFrame_shiftRight]
  omega

theorem encodeFrame_sys5 (hm : modeOf v = m) :
    (encodeFrame v).extractLsb' (commandPosition m + 6) 5 = sys5 (systemByte m v) := by
  subst hm
  have hcmd := (cmd6 (commandByte (modeOf v) v)).isLt
  have hsys := (sys5 (systemByte (modeOf v) v)).isLt
  refine BitVec.eq_of_toNat_eq ?_
  rw [BitVec.extractLsb'_toNat, Nat.shiftRight_add, encodeFrame_shiftRight, Nat.shiftRight_eq_div_pow]
  omega

theorem encodeFrame_s2 (hm : modeOf v = m) :
    (encodeFrame v).extractLsb' (commandPosition m + 12) 1 = s2 (commandByte m v) := by
  subst hm
  have hcmd := (cmd6 (commandByte (modeOf v) v)).isLt
  have hsys := (sys5 (systemByte (modeOf v) v)).isLt
  have hs2 := (s2 (commandByte (modeOf v) v)).isLt
  refine BitVec.eq_of_toNat_eq ?_
  rw [BitVec.extractLsb'_toNat, Nat.shiftRight_add, encodeFrame_shiftRight, Nat.shiftRight_eq_div_pow]
  omega

theorem encodeFrame_data6 (hm : modeOf v = .extended) : (encodeFrame v).extractLsb' 0 6 = data6 (dataByte v) := by
  have hdata := (data6 (dataByte v)).isLt
  refine BitVec.eq_of_toNat_eq ?_
  rw [BitVec.extractLsb'_toNat, encodeFrame_extended_toNat hm, Nat.shiftRight_zero]
  omega

/-- The second start bit of the frame word is the comparison of the command byte with 64. -/
theorem encodeFrame_secondStartBit (hm : modeOf v = m) :
    (encodeFrame v).getLsbD (commandPosition m + 12) = decide ((commandByte m v).toNat < 64) := by
  rw [← s2_getLsbD, ← encodeFrame_s2 hm, BitVec.getLsbD_extractLsb']
  rfl

end Positions

section Numbers
variable {a c d : Nat}

/-- A system number and a command number make a Standard descriptor of their bytes. -/
theorem standard_descriptor {v : Desc} (ha : a < 32) (hc : c < 128) (hv : v = BitVec.ofNat 32 (a * 256 + c)) :
    modeOf v = .standard ∧ (systemByte .standard v).toNat = a ∧ (commandByte .standard v).toNat = c := by
  have hnum : v.toNat = a * 256 + c := by rw [hv, BitVec.toNat_ofNat, Nat.mod_eq_of_lt (by omega)]
  rw [modeOf_eq_standard_iff, systemByte_standard_toNat, commandByte_standard_toNat, hnum]
  exact ⟨by omega, by omega, by omega⟩

/-- A system number other than 0, a command number and a data number make an Extended descriptor of their bytes. -/
theorem extended_descriptor {v : Desc} (ha : 1 ≤ a) (ha' : a < 32) (hc : c < 128) (hd : d < 64)
    (hv : v = BitVec.ofNat 32 (a * 65536 + c * 256 + d)) :
    modeOf v = .extended ∧ (systemByte .extended v).toNat = a ∧ (commandByte .extended v).toNat = c ∧ (dataByte v).toNat = d := by
  have hnum : v.toNat = a * 65536 + c * 256 + d := by rw [hv, BitVec.toNat_ofNat, Nat.mod_eq_of_lt (by omega)]
  rw [modeOf_eq_extended_iff, systemByte_extended_toNat, commandByte_extended_toNat, dataByte_toNat, hnum]
  exact ⟨by omega, by omega, by omega, by omega⟩

end Numbers

/-- A Standard frame sends S1 and S2 first. -/
theorem elementsOf_standard_take_two (f : FrameWord) :
    (elementsOf .standard f).take 2 = [.bit (f.getLsbD 13), .bit (f.getLsbD 12)] := rfl

section Injective
variable {v w : Desc} (hm : modeOf v = modeOf w) (hf : encodeFrame v = encodeFrame w)
include hm hf

theorem s2_eq_of_frame_eq : s2 (commandByte (modeOf v) v) = s2 (commandByte (modeOf w) w) := by
  rw [hm, ← encodeFrame_s2 hm, ← encodeFrame_s2 rfl, hf]

theorem sys5_eq_of_frame_eq : sys5 (systemByte (modeOf v) v) = sys5 (systemByte (modeOf w) w) := by
  rw [hm, ← encodeFrame_sys5 hm, ← encodeFrame_sys5 rfl, hf]

theorem cmd6_eq_of_frame_eq : cmd6 (commandByte (modeOf v) v) = cmd6 (commandByte (modeOf w) w) := by
  rw [hm, ← encodeFrame_cmd6 hm, ← encodeFrame_cmd6 rfl, hf]

theorem data6_eq_of_frame_eq (h : modeOf v = .extended) : data6 (dataByte v) = data6 (dataByte w) := by
  rw [← encodeFrame_data6 h, ← encodeFrame_data6 (hm ▸ h), hf]

/-- On the domain of 40_encoder.md R91 no byte has a bit that its field leaves out and S2 does not give. -/
theorem bytes_eq_of_frame_eq (hv : inInjectiveDomain v) (hw : inInjectiveDomain w) :
    systemByte (modeOf v) v = systemByte (modeOf w) w ∧ commandByte (modeOf v) v = commandByte (modeOf w) w ∧
      (modeOf v = .extended → dataByte v = dataByte w) := by
  obtain ⟨hsv, hcv, hdv⟩ := hv
  obtain ⟨hsw, hcw, hdw⟩ := hw
  refine ⟨BitVec.eq_of_toNat_eq ?_, BitVec.eq_of_toNat_eq ?_, fun h => BitVec.eq_of_toNat_eq ?_⟩
  · have hsys := congrArg BitVec.toNat (sys5_eq_of_frame_eq hm hf)
    rwa [sys5_toNat, sys5_toNat, Nat.mod_eq_of_lt hsv, Nat.mod_eq_of_lt hsw] at hsys
  · rw [toNat_eq_of_s2_cmd6 _ hcv, toNat_eq_of_s2_cmd6 _ hcw, s2_eq_of_frame_eq hm hf, cmd6_eq_of_frame_eq hm hf]
  · have hdata := congrArg BitVec.toNat (data6_eq_of_frame_eq hm hf h)
    obtain ⟨-, hdv⟩ := hdv h
    obtain ⟨-, hdw⟩ := hdw (hm ▸ h)
    rwa [data6_toNat, data6_toNat, Nat.mod_eq_of_lt hdv, Nat.mod_eq_of_lt hdw] at hdata

end Injective

end Sys2Proof.Machine
end

section
/-! SUPPORT. The time a frame takes: two half-slots for each element and two more for a pause (41_transmitter.md R96, R97). -/

namespace Sys2Proof.Machine

theorem length_flatMap_halves (es : List Element) :
    (es.flatMap halves).length = 2 * es.length + 2 * es.count .pause := by
  induction es with
  | nil => rfl
  | cons e es ih =>
    rw [List.flatMap_cons, List.length_append, ih, List.length_cons]
    cases e with
    | bit b =>
      rw [List.count_cons_of_ne (by simp)]
      simp only [halves, List.length_cons, List.length_nil]
      omega
    | pause =>
      rw [List.count_cons_self]
      simp only [halves, List.length_cons, List.length_nil]
      omega

theorem halfSlotsOf_length (m : Mode) (f : FrameWord) : (halfSlotsOf m f).length = halfSlotCount m := by
  rw [halfSlotsOf, length_flatMap_halves]
  cases m with
  | standard => rw [elementsOf_standard_length, count_pause_standard]; rfl
  | extended => rw [elementsOf_extended_length, count_pause_extended]; rfl

end Sys2Proof.Machine
end

section
/-! PROOFS. The statements of 40_encoder.md: the mode, the two frame words and their fields, the order of the elements. -/

namespace Sys2Proof.Machine

/-- Settles O16: each field stands in its place in the frame word, and on the domain of R91 the fields give back the bytes. -/
theorem frameDeterminesFields : Obligations.FrameDeterminesFields :=
  ⟨fun _ _ hm hf =>
      ⟨s2_eq_of_frame_eq hm hf, sys5_eq_of_frame_eq hm hf, cmd6_eq_of_frame_eq hm hf, data6_eq_of_frame_eq hm hf,
        bytes_eq_of_frame_eq hm hf⟩,
    fun _ => toNat_eq_of_s2_cmd6 _, by decide⟩

/-- Settles O9: the fields of the sum as numbers of the descriptor; the corner cases and the example by evaluation. -/
theorem standardFrameWord : Obligations.StandardFrameWord := by
  refine ⟨fun v hv => ?_, by decide⟩
  have hm : modeOf v = .standard := modeOf_eq_standard_iff.2 hv
  rw [encodeFrame_standard_toNat hm, s2_toNat, sys5_toNat, cmd6_toNat, systemByte_standard_toNat, commandByte_standard_toNat]
  split_ifs <;> omega

/-- Settles O10, as O9. -/
theorem extendedFrameWord : Obligations.ExtendedFrameWord := by
  refine ⟨fun v hv => ?_, by decide⟩
  have hm : modeOf v = .extended := modeOf_eq_extended_iff.2 hv
  rw [encodeFrame_extended_toNat hm, s2_toNat, sys5_toNat, cmd6_toNat, data6_toNat, systemByte_extended_toNat,
    commandByte_extended_toNat, dataByte_toNat]
  split_ifs <;> omega

/-- Settles O11: S2 stands in both frame words, and bits 7 and 6 of a byte are its binary digits at 128 and 64. -/
theorem secondStartBitComparesTheWholeByte : Obligations.SecondStartBitComparesTheWholeByte := by
  refine ⟨fun _ => encodeFrame_secondStartBit (m := .standard), fun _ => encodeFrame_secondStartBit (m := .extended), fun b => ?_⟩
  have hb := b.isLt
  have hbit (k : Nat) : b.getLsbD k = decide (b.toNat / 2 ^ k % 2 = 1) := Nat.testBit_eq_decide_div_mod_eq
  rw [s2_getLsbD, hbit 7, hbit 6, ← Bool.decide_or, ← decide_not, ← decide_not]
  refine ⟨rfl, decide_eq_decide.2 ?_, fun h128 => decide_eq_decide.2 ?_, fun h128 h192 => decide_eq_false ?_⟩ <;> omega

/-- Settles O15: the rule's numbers are the bytes of the descriptor, and the bytes' fields stand in the frame word. -/
theorem encoderProperties : Obligations.EncoderProperties := by
  refine ⟨fun a c ha hc => ?standard, fun a c ha h64 hc => ?standardAbove, fun a c d ha ha' hc hd => ?extended⟩
  case standard =>
    intro v
    obtain ⟨hm, hsys, hcmd⟩ := standard_descriptor (v := v) ha (by omega) rfl
    obtain ⟨hs1, -⟩ := encodeFrame_standard_constants hm
    clear_value v
    have hs2 : (encodeFrame v).getLsbD 12 = true := (encodeFrame_secondStartBit hm).trans (decide_eq_true (by omega))
    rw [elements, hm, elementsOf_standard_take_two, hs1, hs2, ← hsys, ← hcmd]
    exact ⟨rfl, elementsOf_standard_length _, rfl, encodeFrame_sys5 (m := .standard) hm, encodeFrame_cmd6 (m := .standard) hm⟩
  case standardAbove =>
    obtain ⟨hm, -, hcmd⟩ := standard_descriptor ha hc rfl
    exact (encodeFrame_secondStartBit hm).trans (decide_eq_false (by omega))
  case extended =>
    intro v
    obtain ⟨hm, hsys, hcmd, hdata⟩ := extended_descriptor (v := v) ha ha' hc hd rfl
    clear_value v
    rw [← hsys, ← hcmd, ← hdata]
    exact ⟨hm, encodeFrame_secondStartBit (m := .extended) hm, fun _ =>
      ⟨encodeFrame_sys5 (m := .extended) hm, encodeFrame_cmd6 (m := .extended) hm, encodeFrame_data6 hm⟩⟩

/-- Settles O8, by the value of the upper half. -/
theorem modeReadsBitsAboveFifteen : Obligations.ModeReadsBitsAboveFifteen := by
  refine ⟨fun v => ⟨?_, modeOf_eq_extended_iff, modeOf_eq_standard_iff⟩, by decide⟩
  rw [modeOf_eq_extended_iff, ne_eq, upperHalf_eq_zero_iff, not_lt]

/-- Settles O12. -/
theorem startAndToggleBitsAreOne : Obligations.StartAndToggleBitsAreOne := fun _ =>
  ⟨encodeFrame_standard_constants, encodeFrame_extended_constants⟩

/-- Settles O13, by the places of the elements in each mode; the pause makes 22 bit-times of 21 elements. -/
theorem elementSequences : Obligations.ElementSequences := fun v => by
  rw [halfSlots, elements]
  refine ⟨fun hm => ?_, fun hm => ?_⟩ <;> rw [hm]
  · exact ⟨elementsOf_standard_length _, fun _ => elementsOf_standard_bit _⟩
  · exact ⟨elementsOf_extended_length _, fun _ => elementsOf_extended_bit_before_pause _, elementsOf_extended_pause _,
      fun _ => elementsOf_extended_bit_after_pause _, halfSlotsOf_length _ _⟩

end Sys2Proof.Machine
end

section
/-! SUPPORT. The half-slot sequence of a frame: where each element starts, the level of each entry, and how the levels are counted
(41_transmitter.md R96, R97, R102, R116). -/

namespace Sys2Proof.Machine

/-- The half-slot in which element `k` starts: the pause of an Extended frame, element 8, takes four half-slots, a bit two. -/
def elementOffset : Mode → Nat → Nat
  | .standard, k => 2 * k
  | .extended, k => if k ≤ 8 then 2 * k else 2 * k + 2

section Offset
variable (m : Mode) (k : Nat)

@[simp] theorem elementOffset_zero : elementOffset m 0 = 0 := by
  cases m <;> rfl

theorem elementOffset_even : elementOffset m k % 2 = 0 := by
  cases m with
  | standard => simp only [elementOffset]; omega
  | extended => simp only [elementOffset]; split_ifs <;> omega

/-- No element of an Extended frame starts inside the pause. -/
theorem elementOffset_extended_ne : elementOffset .extended k ≠ 18 := by
  simp only [elementOffset]
  split_ifs <;> omega

/-- The offset and the index of an element belong together. -/
@[simp] theorem elementIndex_elementOffset : elementIndex m (elementOffset m k) = k := by
  cases m with
  | standard => simp only [elementIndex, elementOffset]; omega
  | extended =>
    simp only [elementIndex, elementOffset]
    split_ifs <;> omega

theorem elementOffset_length (f : FrameWord) : elementOffset m (elementsOf m f).length = halfSlotCount m := by
  cases m with
  | standard => rw [elementsOf_standard_length]; rfl
  | extended => rw [elementsOf_extended_length]; rfl

end Offset

/-- The next element starts where the halves of this one end. -/
theorem elementOffset_succ {m : Mode} {f : FrameWord} {k : Nat} {e : Element} (he : (elementsOf m f)[k]? = some e) :
    elementOffset m (k + 1) = elementOffset m k + (halves e).length := by
  have hlen := (List.getElem?_eq_some_iff.1 he).1
  cases m with
  | standard =>
    rw [elementsOf_standard_length] at hlen
    rw [elementsOf_standard_bit f hlen] at he
    cases he
    simp only [elementOffset, halves, List.length_cons, List.length_nil]
    omega
  | extended =>
    rw [elementsOf_extended_length] at hlen
    rcases Nat.lt_trichotomy k 8 with hlt | rfl | hgt
    · rw [elementsOf_extended_bit_before_pause f hlt] at he
      cases he
      simp only [elementOffset, halves, List.length_cons, List.length_nil, hlt.le, if_true, show k + 1 ≤ 8 by omega]
      omega
    · rw [elementsOf_extended_pause] at he
      cases he
      rfl
    · rw [show k = 9 + (k - 9) by omega, elementsOf_extended_bit_after_pause f (by omega)] at he
      cases he
      simp only [elementOffset, halves, List.length_cons, List.length_nil, not_le.2 hgt, if_false, show ¬ k + 1 ≤ 8 by omega]
      omega

theorem halves_length_le (e : Element) : (halves e).length ≤ 4 := by
  cases e <;> simp [halves]

/-- The levels of `n` half-slots from `j` on. -/
def levelsFrom (m : Mode) (f : FrameWord) (j n : Nat) : List Level :=
  (List.range' j n).map fun i => level m f (BitVec.ofNat 6 i)

theorem levelsFrom_append (m : Mode) (f : FrameWord) (j a b : Nat) :
    levelsFrom m f j a ++ levelsFrom m f (j + a) b = levelsFrom m f j (a + b) := by
  rw [levelsFrom, levelsFrom, levelsFrom, ← List.map_append, List.range'_append_1]

/-- An element that a frame has starts inside the frame. -/
theorem halfSlot_lt_of_element {m : Mode} {f : FrameWord} {j : Nat} {e : Element}
    (he : (elementsOf m f)[elementIndex m j]? = some e) : j < 44 := by
  have hlen := (List.getElem?_eq_some_iff.1 he).1
  cases m with
  | standard =>
    rw [elementsOf_standard_length, elementIndex] at hlen
    omega
  | extended =>
    rw [elementsOf_extended_length, elementIndex] at hlen
    split_ifs at hlen <;> omega

/-- An element's halves are the levels of its half-slots. -/
theorem halves_eq_levelsFrom {m : Mode} {f : FrameWord} {j : Nat} {e : Element} (hj : j % 2 = 0) (h18 : m = .extended → j ≠ 18)
    (he : (elementsOf m f)[elementIndex m j]? = some e) : halves e = levelsFrom m f j (halves e).length := by
  have hj44 := halfSlot_lt_of_element he
  have hlen := halves_length_le e
  refine List.ext_getElem? fun k => ?_
  by_cases hk : k < (halves e).length
  · have htoNat : (BitVec.ofNat 6 (j + k)).toNat = j + k := by
      rw [BitVec.toNat_ofNat]
      omega
    rw [(element_halves_are_levels hj h18 he hk htoNat).2, levelsFrom, List.getElem?_map, List.getElem?_range' hk, Option.map_some,
      Nat.one_mul]
  · rw [List.getElem?_eq_none (not_lt.1 hk), List.getElem?_eq_none (by simpa [levelsFrom] using hk)]

/-- The halves of the first `k` elements are the levels of the half-slots before element `k`. -/
theorem flatMap_halves_take (m : Mode) (f : FrameWord) :
    ∀ k ≤ (elementsOf m f).length, ((elementsOf m f).take k).flatMap halves = levelsFrom m f 0 (elementOffset m k)
  | 0, _ => by simp [levelsFrom]
  | k + 1, hk => by
    have he : (elementsOf m f)[k]? = some (elementsOf m f)[k] := List.getElem?_eq_getElem hk
    have hhalves := halves_eq_levelsFrom (m := m) (f := f) (j := elementOffset m k) (elementOffset_even m k)
      (by rintro rfl; exact elementOffset_extended_ne k) (by rwa [elementIndex_elementOffset])
    rw [List.take_add_one, he, Option.toList_some, List.flatMap_append, flatMap_halves_take m f k (by omega), elementOffset_succ he,
      ← levelsFrom_append, Nat.zero_add, ← hhalves, List.flatMap_singleton]

/-- The half-slot sequence is the level of every half-slot in turn (41_transmitter.md R102). -/
theorem halfSlotsOf_eq_levelsFrom (m : Mode) (f : FrameWord) : halfSlotsOf m f = levelsFrom m f 0 (halfSlotCount m) := by
  rw [halfSlotsOf, ← elementOffset_length m f, ← flatMap_halves_take m f _ le_rfl, List.take_length]

theorem halfSlotsOf_getElem? {m : Mode} {k : Nat} (hk : k < halfSlotCount m) (f : FrameWord) :
    (halfSlotsOf m f)[k]? = some (level m f (BitVec.ofNat 6 k)) := by
  rw [halfSlotsOf_eq_levelsFrom, levelsFrom, List.getElem?_map, List.getElem?_range' hk, Option.map_some, Nat.one_mul, Nat.zero_add]

/-- A bit has one High and one Low half, the pause four Low ones (41_transmitter.md R96). -/
theorem count_flatMap_halves (es : List Element) :
    (es.flatMap halves).count true + es.count .pause = es.length ∧
      (es.flatMap halves).count false = es.length + 3 * es.count .pause := by
  induction es with
  | nil => simp
  | cons e es ih =>
    obtain ⟨htrue, hfalse⟩ := ih
    rw [List.flatMap_cons, List.count_append, List.count_append, List.length_cons]
    cases e with
    | bit b =>
      have hbit : (halves (.bit b)).count true = 1 ∧ (halves (.bit b)).count false = 1 := by cases b <;> decide
      rw [hbit.1, hbit.2, List.count_cons_of_ne (by simp)]
      omega
    | pause =>
      have hpause : (halves .pause).count true = 0 ∧ (halves .pause).count false = 4 := by decide
      rw [hpause.1, hpause.2, List.count_cons_self]
      omega

end Sys2Proof.Machine
end

section
/-! SUPPORT. What the levels of a frame tell of its mode and its word (41_transmitter.md R102, R113, R115). -/

namespace Sys2Proof.Machine

/-- `bitHalf` by the parity of the half-slot, as R102 writes it. -/
theorem bitHalf_eq_ite_even (b : Bool) (h : HalfIdx) : bitHalf b h = if h.toNat % 2 = 0 then !b else b := by
  rw [bitHalf_eq]
  rcases Nat.mod_two_eq_zero_or_one h.toNat with hpar | hpar <;> simp [hpar]

/-- The second half of a bit is the bit. -/
theorem bitHalf_ofNat_odd (b : Bool) {i : Nat} (hi : 2 * i + 1 < 64) : bitHalf b (BitVec.ofNat 6 (2 * i + 1)) = b := by
  rw [bitHalf_eq, BitVec.toNat_ofNat, Nat.mod_eq_of_lt hi, if_pos (by omega)]

section HalfSlots
variable (f : FrameWord) {k : Nat}

theorem halfSlotsOf_standard_second_half (hk : k < 14) :
    (halfSlotsOf .standard f)[2 * k + 1]? = some (f.getLsbD (13 - k)) := by
  have hnum : (BitVec.ofNat 6 (2 * k + 1)).toNat = 2 * k + 1 := by rw [BitVec.toNat_ofNat]; omega
  rw [halfSlotsOf_getElem? (show 2 * k + 1 < 28 by omega), level_standard f (by omega), bitHalf_ofNat_odd _ (by omega), hnum,
    show (2 * k + 1) / 2 = k by omega]

theorem halfSlotsOf_extended_second_half_before_pause (hk : k < 8) :
    (halfSlotsOf .extended f)[2 * k + 1]? = some (f.getLsbD (19 - k)) := by
  have hnum : (BitVec.ofNat 6 (2 * k + 1)).toNat = 2 * k + 1 := by rw [BitVec.toNat_ofNat]; omega
  rw [halfSlotsOf_getElem? (show 2 * k + 1 < 44 by omega), level_extended_before_pause f (by omega), bitHalf_ofNat_odd _ (by omega),
    hnum, show (2 * k + 1) / 2 = k by omega]

theorem halfSlotsOf_extended_pause (h16 : 16 ≤ k) (h20 : k < 20) : (halfSlotsOf .extended f)[k]? = some false := by
  have hnum : (BitVec.ofNat 6 k).toNat = k := by rw [BitVec.toNat_ofNat]; omega
  rw [halfSlotsOf_getElem? (show k < 44 by omega), level_extended_pause f (by omega) (by omega)]

theorem halfSlotsOf_extended_second_half_after_pause (hk : k < 12) :
    (halfSlotsOf .extended f)[2 * k + 21]? = some (f.getLsbD (11 - k)) := by
  have hnum : (BitVec.ofNat 6 (2 * k + 21)).toNat = 2 * k + 21 := by rw [BitVec.toNat_ofNat]; omega
  rw [halfSlotsOf_getElem? (show 2 * k + 21 < 44 by omega), level_extended_after_pause f (by omega) (by omega), hnum,
    show 2 * k + 21 = 2 * (k + 10) + 1 by ring, bitHalf_ofNat_odd _ (by omega), show (2 * (k + 10) + 1 - 20) / 2 = k by omega]

end HalfSlots

/-- The second halves of the bits spell out a Standard frame word. -/
theorem frame_eq_of_halfSlotsOf_standard_eq {f g : FrameWord} (hf : f.extractLsb' 14 6 = 0#6) (hg : g.extractLsb' 14 6 = 0#6)
    (h : halfSlotsOf .standard f = halfSlotsOf .standard g) : f = g := by
  refine BitVec.eq_of_getLsbD_eq fun i hi => ?_
  by_cases hlow : i < 14
  · have hsecond := halfSlotsOf_standard_second_half f (show 13 - i < 14 by omega)
    rw [h, halfSlotsOf_standard_second_half g (by omega), show 13 - (13 - i) = i by omega] at hsecond
    exact (Option.some.inj hsecond).symm
  · have hbits := congrArg (fun x : BitVec 6 => x.getLsbD (i - 14)) (hf.trans hg.symm)
    simpa [show i - 14 < 6 by omega, show 14 + (i - 14) = i by omega] using hbits

/-- The second halves of the bits before and after the pause spell out an Extended frame word. -/
theorem frame_eq_of_halfSlotsOf_extended_eq {f g : FrameWord} (h : halfSlotsOf .extended f = halfSlotsOf .extended g) : f = g := by
  refine BitVec.eq_of_getLsbD_eq fun i hi => ?_
  by_cases hlow : i < 12
  · have hsecond := halfSlotsOf_extended_second_half_after_pause f (show 11 - i < 12 by omega)
    rw [h, halfSlotsOf_extended_second_half_after_pause g (by omega), show 11 - (11 - i) = i by omega] at hsecond
    exact (Option.some.inj hsecond).symm
  · have hsecond := halfSlotsOf_extended_second_half_before_pause f (show 19 - i < 8 by omega)
    rw [h, halfSlotsOf_extended_second_half_before_pause g (by omega), show 19 - (19 - i) = i by omega] at hsecond
    exact (Option.some.inj hsecond).symm

theorem halfSlotCount_injective : Function.Injective halfSlotCount := by
  intro m m'
  cases m <;> cases m' <;> simp [halfSlotCount]

/-- The half-slot sequence of a descriptor determines the mode, by its length, and the frame word. -/
theorem frame_eq_of_halfSlots_eq {v w : Desc} (h : halfSlots v = halfSlots w) :
    modeOf v = modeOf w ∧ encodeFrame v = encodeFrame w := by
  rw [halfSlots, halfSlots] at h
  have hmode : modeOf v = modeOf w :=
    halfSlotCount_injective (by rw [← halfSlotsOf_length _ (encodeFrame v), h, halfSlotsOf_length])
  refine ⟨hmode, ?_⟩
  cases hm : modeOf w with
  | standard =>
    rw [hmode, hm] at h
    exact frame_eq_of_halfSlotsOf_standard_eq (encodeFrame_zeroExtended (hmode.trans hm)) (encodeFrame_zeroExtended hm) h
  | extended =>
    rw [hmode, hm] at h
    exact frame_eq_of_halfSlotsOf_extended_eq h

/-- A frame starts with the Low half of S1 (41_transmitter.md R105). -/
theorem level_encodeFrame_zero (v : Desc) : level (modeOf v) (encodeFrame v) 0#6 = false := by
  cases hm : modeOf v with
  | standard =>
    rw [level_standard _ (by decide)]
    exact congrArg not (encodeFrame_standard_constants hm).1
  | extended =>
    rw [level_extended_before_pause _ (by decide)]
    exact congrArg not (encodeFrame_extended_constants hm).1

/-- A frame ends with the second half of its last bit (41_transmitter.md R113). -/
theorem level_of_hlast {r : Regs} (h : hlast r = true) : level r.mode r.frame r.h = r.frame.getLsbD 0 := by
  have hh : r.h.toNat = halfSlotCount r.mode - 1 := by simpa [hlast] using h
  cases hm : r.mode with
  | standard =>
    have hh : r.h.toNat = 27 := by simpa [hm, halfSlotCount] using hh
    rw [level_standard _ (by omega), bitHalf_eq, hh]
    rfl
  | extended =>
    have hh : r.h.toNat = 43 := by simpa [hm, halfSlotCount] using hh
    rw [level_extended_after_pause _ (by omega) (by omega), bitHalf_eq, hh]
    rfl

/-- Stretching by `P ≥ 1` loses nothing. -/
theorem stretch_injective (p : Params) : Function.Injective (stretch p) := by
  intro vs
  induction vs with
  | nil =>
    intro ws h
    have hlen := congrArg List.length h
    rw [length_stretch, length_stretch, List.length_nil, Nat.zero_mul] at hlen
    exact (List.eq_nil_of_length_eq_zero ((Nat.mul_eq_zero.1 hlen.symm).resolve_right (P_pos p).ne')).symm
  | cons v vs ih =>
    rintro (_ | ⟨w, ws⟩) h
    · have hlen := congrArg List.length h
      rw [length_stretch, length_stretch, List.length_nil, Nat.zero_mul, List.length_cons] at hlen
      exact absurd hlen (Nat.mul_pos (Nat.succ_pos _) (P_pos p)).ne'
    · obtain ⟨hv, hvs⟩ := List.append_inj h (by simp)
      rw [ih hvs, List.replicate_right_injective (P_pos p).ne' hv]

end Sys2Proof.Machine
end

section
/-! PROOFS. The statements of 41_transmitter.md on the levels of a frame. -/

namespace Sys2Proof.Machine

/-- Settles O17: the sequence is the level of every half-slot in turn, and the ranges are the branches of the closed form. -/
theorem levelIsTheHalfSlotEntry : Obligations.LevelIsTheHalfSlotEntry := fun m f => by
  refine ⟨rfl, halfSlotsOf_length m f, fun h hh => ?_, fun h hh => ?_, fun h hh => ?_, fun h => level_extended_pause f,
    fun h h20 h44 => ?_⟩
  · rw [halfSlotsOf_getElem? hh, BitVec.ofNat_toNat, BitVec.setWidth_eq]
  · rw [level_standard f hh, bitHalf_eq_ite_even]
  · rw [level_extended_before_pause f hh, bitHalf_eq_ite_even]
  · rw [level_extended_after_pause f h20 h44, bitHalf_eq_ite_even]

/-- Settles O18, by the counts of one element and the number of elements and of pauses in each mode. -/
theorem oneHighHalfSlotPerBit : Obligations.OneHighHalfSlotPerBit := fun v => by
  rw [halfSlots, halfSlotsOf]
  obtain ⟨htrue, hfalse⟩ := count_flatMap_halves (elementsOf (modeOf v) (encodeFrame v))
  refine ⟨fun hm => ?_, fun hm => ?_⟩ <;> rw [hm] at htrue hfalse ⊢
  · rw [elementsOf_standard_length, count_pause_standard] at htrue hfalse
    omega
  · rw [elementsOf_extended_length, count_pause_extended] at htrue hfalse
    omega

/-- Settles O19: the elements by their halves, the two ends of a frame by its first and its last level. -/
theorem transitionsOfAFrame : Obligations.TransitionsOfAFrame := by
  refine ⟨by decide, by decide, by decide, by decide, fun s v hinv hidle => ?_, fun s hinv hbusy hlast => ?_, by decide, by decide⟩
  · rw [acceptRegs_irOut, level_encodeFrame_zero, (hinv.idle hidle).1]
  · refine ⟨_, rfl, ?_⟩
    rw [hinv.driven hbusy, level_of_hlast hlast]
    cases s.regs.frame.getLsbD 0 <;> simp

/-- Settles O20: stretching loses nothing, and the second halves of the bits spell out the frame word. -/
theorem waveformRoundTrip : Obligations.WaveformRoundTrip := fun p v w => by
  refine ⟨by rw [length_stretch, halfSlots, halfSlotsOf_length], fun hm => ?_, fun hm => ?_, fun h => ?_⟩
  · rw [halfSlots, hm]
    exact fun _ => halfSlotsOf_standard_second_half _
  · rw [halfSlots, hm]
    exact ⟨fun _ => halfSlotsOf_extended_second_half_before_pause _, fun _ => halfSlotsOf_extended_pause _,
      fun _ => halfSlotsOf_extended_second_half_after_pause _⟩
  · obtain ⟨hm, hf⟩ := frame_eq_of_halfSlots_eq (stretch_injective p h)
    exact ⟨hm, hf, bytes_eq_of_frame_eq hm hf⟩

end Sys2Proof.Machine
end

section
/-! SUPPORT. A clock edge as the rules list it, and what a step runs (41_transmitter.md R111). -/

namespace Sys2Proof.Machine

/-- Every row of the step table makes the register change that the rules list for its condition. -/
theorem EdgeStep.eq_listedStep {p : Params} {r r' : Regs} {i : Input} (h : EdgeStep p r i r') (hc : r.c < p.P) :
    r' = listedStep p r i := by
  unfold listedStep
  rw [P_sub_one]
  cases h with
  | reset hrst => rw [if_pos hrst]; rfl
  | nop hrst hbusy hstart => simp [hrst, hbusy, hstart]
  | accept hrst hbusy hstart => simp [hrst, hbusy, hstart, acceptRegs]
  | hold hrst hbusy hcdone => simp [hrst, hbusy, (cdone_eq_false_iff p r).1 hcdone, incC_of_not_cdone hc hcdone]
  | advance hrst hbusy hcdone hhlast =>
    have hclast : r.c = p.pLast := by simpa [cdone] using hcdone
    simp [hrst, hbusy, hclast, (hlast_eq_false_iff r).1 hhlast, incH]
  | finish hrst hbusy hcdone hhlast =>
    have hclast : r.c = p.pLast := by simpa [cdone] using hcdone
    have hhl : r.h.toNat = halfSlotCount r.mode - 1 := by simpa [hlast] using hhlast
    simp [hrst, hbusy, hclast, hhl]

/-- A script that passes a cycle while the block is busy presents no reset in it. -/
theorem input_rst_of_passQuiet {s : State} {n : Nat} {after : List Stmt} (hbusy : s.regs.busy = true)
    (h : passQuiet (n + 1) s.script = some after) : s.input.rst = false := by
  obtain ⟨i, rest, hpresent, hrst, -⟩ := passQuiet_succ h
  rw [State.input, State.presented, hbusy, hpresent]
  exact hrst

/-- Every element's code decodes. -/
theorem exists_decode_elementCode (e : Element) : ∃ i, decode (.element (elementCode e)) = .ok i := by
  rcases e with (_ | _) | _ <;> exact ⟨_, rfl⟩

theorem busy_of_boundary {p : Params} {r : Regs} (h : atElementBoundary p r = true) : r.busy = true :=
  ((atElementBoundary_iff p r).1 h).1

end Sys2Proof.Machine
end

section
/-! SUPPORT. The half-slots and the cycles that an element step covers (41_transmitter.md R98 to R100). -/

namespace Sys2Proof.Machine

section ElementEnd
variable {h : HalfIdx}

/-- At an even half-slot an element starts at once. -/
theorem elementEnd_of_even (hh : h.toNat % 2 = 0) (n : Nat) : elementEnd h (n + 1) = h + BitVec.ofNat 6 n := by
  have hand : h &&& 1#6 = 0#6 := BitVec.eq_of_toNat_eq (by rw [BitVec.toNat_and]; exact (Nat.and_one_is_mod _).trans hh)
  rw [elementEnd, elementStart, hand, BitVec.add_zero, Nat.add_sub_cancel]

/-- At an odd half-slot, the last one of an element, the next element starts with the next half-slot. -/
theorem elementEnd_of_odd (hh : h.toNat % 2 = 1) (n : Nat) : elementEnd h (n + 1) = h + BitVec.ofNat 6 (n + 1) := by
  have hand : h &&& 1#6 = 1#6 := BitVec.eq_of_toNat_eq (by rw [BitVec.toNat_and]; exact (Nat.and_one_is_mod _).trans hh)
  rw [elementEnd, elementStart, hand, Nat.add_sub_cancel, Nat.add_comm n 1, BitVec.ofNat_add, BitVec.add_assoc]

end ElementEnd

/-- The clock edges to the last cycle of a half-slot `k` half-slots on. -/
theorem edgesToSend_eq {p : Params} {r : Regs} {n k : Nat} (hend : (elementEnd r.h n).toNat = r.h.toNat + k) :
    edgesToSend p r n = (k + 1) * p.P - 1 - r.c := by
  rw [edgesToSend, hend, P_eq, Nat.add_mul, Nat.add_mul]
  omega

theorem stretch_bit (p : Params) (a b : Level) : stretch p [a, b] = List.replicate p.P a ++ List.replicate p.P b := by
  simp [stretch]

theorem stretch_pause (p : Params) : stretch p [false, false, false, false] = List.replicate (4 * p.P) false := by
  simp [stretch]
  omega

/-- An element that ends `k` half-slots on: the registers and the cycle after it. -/
theorem sendElement_of_end {s : State} {vs : List Level} {k : Nat}
    (hend : elementEnd s.regs.h vs.length = s.regs.h + BitVec.ofNat 6 k) (hk : s.regs.h.toNat + k < 64) :
    (s.sendElement vs).regs =
        { s.regs with h := s.regs.h + BitVec.ofNat 6 k, c := s.params.P - 1, irOut := vs.getLastD s.regs.irOut } ∧
      (s.sendElement vs).cycle = s.cycle + ((k + 1) * s.params.P - 1 - s.regs.c) := by
  have hnat : (elementEnd s.regs.h vs.length).toNat = s.regs.h.toNat + k := by
    rw [hend, BitVec.toNat_add, BitVec.toNat_ofNat]
    omega
  exact ⟨by rw [sendElement_regs, hend, P_sub_one], by rw [sendElement_cycle, edgesToSend_eq hnat]⟩

/-- A bit that ends `k` half-slots on, with its line. -/
theorem sendElement_bit {s : State} {k : Nat} (a b : Level) (hend : elementEnd s.regs.h 2 = s.regs.h + BitVec.ofNat 6 k)
    (hk : s.regs.h.toNat + k < 64) :
    (s.sendElement [a, b]).regs = { s.regs with h := s.regs.h + BitVec.ofNat 6 k, c := s.params.P - 1, irOut := b } ∧
      (s.sendElement [a, b]).cycle = s.cycle + ((k + 1) * s.params.P - 1 - s.regs.c) ∧
      (s.sendElement [a, b]).line = List.replicate s.params.P a ++ List.replicate s.params.P b := by
  obtain ⟨hregs, hcycle⟩ := sendElement_of_end (vs := [a, b]) hend hk
  exact ⟨hregs, hcycle, stretch_bit _ _ _⟩

/-- The pause, where it ends `k` half-slots on, with its line. -/
theorem sendElement_pause {s : State} {k : Nat} (hend : elementEnd s.regs.h 4 = s.regs.h + BitVec.ofNat 6 k)
    (hk : s.regs.h.toNat + k < 64) :
    (s.sendElement (halves .pause)).regs =
        { s.regs with h := s.regs.h + BitVec.ofNat 6 k, c := s.params.P - 1, irOut := false } ∧
      (s.sendElement (halves .pause)).cycle = s.cycle + ((k + 1) * s.params.P - 1 - s.regs.c) ∧
      (s.sendElement (halves .pause)).line = List.replicate (4 * s.params.P) false := by
  obtain ⟨hregs, hcycle⟩ := sendElement_of_end (vs := halves .pause) hend hk
  exact ⟨hregs, hcycle, stretch_pause _⟩

end Sys2Proof.Machine
end

section
/-! PROOFS. The statements of 41_transmitter.md on the single instructions. -/

namespace Sys2Proof.Machine

/-- Settles O33: each row of the step table is one branch of the listing. -/
theorem stepIsTheListing : Obligations.StepIsTheListing := fun _ hedge hc => by
  obtain ⟨t, hstep, hregs⟩ := step_atEdge_regs hedge
  exact ⟨t, hstep, hregs.eq_listedStep hc⟩

/-- Settles O1: the decoder answers the instruction of the edge, and the fetch takes an element where the model frame names it. -/
theorem stepRunsDecodedInstruction : Obligations.StepRunsDecodedInstruction := fun s i _ => by
  refine ⟨fun hedge hdecode => ?_, fun e rest after hrst hlive hcodes helems hnext hb hquiet hdecode => ?_⟩
  · rw [decode_stepWord] at hdecode
    rw [step_atEdge hedge, Except.ok.inj hdecode]
  · exact step_element hrst hlive (busy_of_boundary hb) hcodes
      (playedElement_eq_some.2 ⟨e, rest, after, helems, hnext, hb, hquiet, hdecode, rfl⟩)

/-- Settles O24. -/
theorem resetInEveryState : Obligations.ResetInEveryState := by
  refine ⟨fun s => ⟨_, rfl, fit_reset _⟩, fun s hrst => ?_⟩
  obtain ⟨t, hstep, hregs, -⟩ := step_of_rst hrst
  exact ⟨by rw [decode_stepWord, edgeInstr_of_rst hrst], t, hstep, hregs⟩

/-- Settles O25: the registers that a block holds are written as they are. -/
theorem nopChangesNoRegister : Obligations.NopChangesNoRegister := fun s => by
  refine ⟨⟨_, rfl, fit_regs s⟩, fun hrst hbusy hstart => ?_⟩
  have hinstr : edgeInstr s.params s.regs s.input = .nop := by simp [edgeInstr_of_idle hbusy, hrst, hstart]
  refine ⟨by rw [decode_stepWord, hinstr], fun hlive hinv => ?_⟩
  obtain ⟨hlow, -⟩ := hinv.idle hbusy
  rw [step_atEdge (.inr ⟨hlive, .inl hbusy⟩), hinstr]
  exact ⟨_, rfl, fit_regs s, (congrArg Regs.irOut (fit_regs s)).trans hlow⟩

/-- Settles O26: both accepts load what the descriptor selects, S1 makes the line start Low, and no busy step but a RESET writes
`mode` or `frame`. -/
theorem acceptStartsTheFrame : Obligations.AcceptStartsTheFrame := by
  have hregs (v : Desc) (p : Params) : (acceptRegs (modeOf v) (encodeFrame v)).fit p =
      { busy := true, mode := modeOf v, frame := encodeFrame v, h := 0#6, c := 0, irOut := false } := by
    rw [fit_acceptRegs, acceptRegs, level_encodeFrame_zero]
  refine ⟨fun s v => ⟨fun hstd => ?_, fun hext => ?_⟩, level_encodeFrame_zero, fun s hrst hbusy hstart => ?_,
    fun s t hstep hbusy hrst => ?_⟩
  · have hexec := exec_accept v s
    rw [if_pos (beq_iff_eq.2 hstd)] at hexec
    exact ⟨_, hexec, hregs v s.params⟩
  · have hexec := exec_accept v s
    rw [if_neg (by simpa using hext)] at hexec
    exact ⟨_, hexec, hregs v s.params⟩
  · simp [decode_stepWord, edgeInstr_of_idle hbusy, hrst, hstart]
  · obtain ⟨-, -, hkeep⟩ := modeAndFrameWritten s t hstep
    exact hkeep hrst (.inl hbusy)

/-- Settles O27: below P - 1 the counter has room for one more. -/
theorem holdCountsOneCycle : Obligations.HoldCountsOneCycle := fun s hc hne => by
  rw [P_sub_one] at hne ⊢
  have hcdone : cdone s.params s.regs = false := (cdone_eq_false_iff _ _).2 hne
  have hinc := incC_of_not_cdone hc hcdone
  have hle : s.regs.c + 1 ≤ s.params.pLast := by rw [P_eq] at hc; omega
  refine ⟨⟨_, rfl, ?_⟩, hle, fun hrst hbusy => ?_⟩
  · rw [clock_regs, hinc]
    exact fit_eq (hle.trans_lt (pLast_lt_two_pow_cw _))
  · simp [decode_stepWord, edgeInstr_of_busy hbusy, hrst, hcdone]

/-- Settles O28: the half-slot index has room for one more, and with P = 1 every cycle ends its half-slot. -/
theorem advanceEntersTheNextHalfSlot : Obligations.AdvanceEntersTheNextHalfSlot := by
  refine ⟨fun s hh hne => ?_, fun s hP hinv hbusy hrst => ?_⟩
  · have hinc := incH_of_not_hlast hh
    have hcount := halfSlotCount_le s.regs.mode
    have hlast : hlast s.regs = false := (hlast_eq_false_iff _).2 hne
    refine ⟨incH s.regs.h, _, hinc, by omega, by omega, rfl, ?_, ⟨_, rfl, fit_zero _ _ _ _ _ _⟩, fun hrst hbusy hc => ?_⟩
    · rw [← hinc, halfSlotsOf_getElem? (by omega), BitVec.ofNat_toNat, BitVec.setWidth_eq]
    · have hcdone : cdone s.params s.regs = true := by simpa [cdone] using hc
      simp [decode_stepWord, edgeInstr_of_busy hbusy, hrst, hcdone, hlast]
  · obtain ⟨-, hc⟩ := hinv.inFrame hbusy
    have hcdone : cdone s.params s.regs = true := by
      rw [P_eq] at hP hc
      simp only [cdone, beq_iff_eq]
      omega
    cases hlast : hlast s.regs <;> simp [decode_stepWord, edgeInstr_of_busy hbusy, hrst, hcdone, hlast]

/-- Settles O29. -/
theorem finishEndsTheFrameLow : Obligations.FinishEndsTheFrameLow := fun s => by
  refine ⟨⟨_, rfl, fit_zero _ _ _ _ _ _⟩, fun hrst hbusy hc hh => ?_⟩
  have hcdone : cdone s.params s.regs = true := by simpa [cdone] using hc
  have hlast : hlast s.regs = true := by simpa [hlast] using hh
  simp [decode_stepWord, edgeInstr_of_busy hbusy, hrst, hcdone, hlast]

/-- Settles O45: a busy block's edge runs the same instruction with and without a request. -/
theorem startIgnoredWhileBusy : Obligations.StartIgnoredWhileBusy := fun s v rest hlive helems hbusy => by
  have hsame : edgeInstr s.params s.regs ⟨false, true, v⟩ = edgeInstr s.params s.regs ⟨false, false, v⟩ := by
    rw [edgeInstr_of_busy hbusy, edgeInstr_of_busy hbusy]
  obtain ⟨hfields, -⟩ := modelFieldsAfterAnInstruction
  obtain ⟨t, ht, -, hscript, -⟩ := hfields (edgeInstr s.params s.regs ⟨false, false, v⟩) { s with script := rest }
  rw [step_drive hlive helems, step_drive hlive helems, hsame]
  exact ⟨t, ht, ht, hscript⟩

/-- Settles O30, by the line that an element step leaves. -/
theorem halvesLastPCyclesEach : Obligations.HalvesLastPCyclesEach :=
  ⟨fun _ => rfl, rfl, fun s =>
    ⟨⟨_, rfl, stretch_bit s.params _ _⟩, ⟨_, rfl, stretch_bit s.params _ _⟩, ⟨_, rfl, stretch_pause s.params⟩⟩⟩

/-- Settles O31: a bit ends one half-slot on from an even half-slot and two on from an odd one. -/
theorem bitElementsDriveTwoHalfSlots : Obligations.BitElementsDriveTwoHalfSlots := fun s => by
  have hlt := s.regs.h.isLt
  refine ⟨fun heven => ?_, fun hodd h62 => ?_⟩
  · have hend := elementEnd_of_even heven 1
    exact ⟨⟨_, rfl, sendElement_bit true false hend (by omega)⟩, ⟨_, rfl, sendElement_bit false true hend (by omega)⟩⟩
  · have hend := elementEnd_of_odd hodd 1
    exact ⟨⟨_, rfl, sendElement_bit true false hend (by omega)⟩, ⟨_, rfl, sendElement_bit false true hend (by omega)⟩⟩

/-- Settles O32: the pause ends three half-slots on from an even half-slot and four on from an odd one. -/
theorem pauseDrivesFourLowHalfSlots : Obligations.PauseDrivesFourLowHalfSlots := fun s =>
  ⟨fun heven h62 => ⟨_, rfl, sendElement_pause (elementEnd_of_even heven 3) (by omega)⟩,
    fun hodd h60 => ⟨_, rfl, sendElement_pause (elementEnd_of_odd hodd 3) (by omega)⟩⟩

end Sys2Proof.Machine
end

section
/-! SUPPORT. The registers cycle by cycle: what they hold `n` cycles after an accept, and how the clock edges go from one cycle to
the next (41_transmitter.md R112). -/

namespace Sys2Proof.Machine

/-- The registers `n` cycles after the accept edge of a frame: inside half-slot `n / P` while the frame lasts, idle when it is over. -/
def cycleRegs (p : Params) (m : Mode) (f : FrameWord) (n : Nat) : Regs :=
  if n < halfSlotCount m * p.P then
    { busy := true, mode := m, frame := f, h := BitVec.ofNat 6 (n / p.P), c := n % p.P,
      irOut := level m f (BitVec.ofNat 6 (n / p.P)) }
  else { busy := false, mode := m, frame := f, h := 0#6, c := 0, irOut := false }

section CycleRegs
variable {p : Params} {m : Mode} {n q c : Nat} (f : FrameWord)

theorem cycle_lt (hq : q < halfSlotCount m) (hc : c < p.P) : q * p.P + c < halfSlotCount m * p.P :=
  calc q * p.P + c < (q + 1) * p.P := by rw [Nat.succ_mul]; omega
    _ ≤ halfSlotCount m * p.P := Nat.mul_le_mul_right _ hq

/-- Every cycle of a frame is a cycle of one of its half-slots. -/
theorem exists_halfSlot (hn : n < halfSlotCount m * p.P) : ∃ q c, n = q * p.P + c ∧ q < halfSlotCount m ∧ c < p.P :=
  ⟨n / p.P, n % p.P, by rw [Nat.mul_comm, Nat.div_add_mod], Nat.div_lt_of_lt_mul (by rwa [Nat.mul_comm]), Nat.mod_lt _ (P_pos p)⟩

/-- The registers in cycle `c` of half-slot `q`. -/
theorem cycleRegs_halfSlot (hq : q < halfSlotCount m) (hc : c < p.P) :
    cycleRegs p m f (q * p.P + c) =
      { busy := true, mode := m, frame := f, h := BitVec.ofNat 6 q, c := c, irOut := level m f (BitVec.ofNat 6 q) } := by
  have hdiv : (q * p.P + c) / p.P = q := by
    rw [Nat.mul_comm, Nat.mul_add_div (P_pos p), Nat.div_eq_of_lt hc, Nat.add_zero]
  have hmod : (q * p.P + c) % p.P = c := by rw [Nat.mul_comm, Nat.mul_add_mod, Nat.mod_eq_of_lt hc]
  rw [cycleRegs, if_pos (cycle_lt hq hc), hdiv, hmod]

/-- After `H * P` cycles the frame is over. -/
theorem cycleRegs_end (p : Params) (m : Mode) :
    cycleRegs p m f (halfSlotCount m * p.P) =
      { busy := false, mode := m, frame := f, h := 0#6, c := 0, irOut := false } := if_neg (lt_irrefl _)

theorem cycleRegs_busy (hn : n < halfSlotCount m * p.P) : (cycleRegs p m f n).busy = true := by
  rw [cycleRegs, if_pos hn]

/-- The accept begins cycle 0. -/
theorem acceptRegs_eq_cycleRegs (p : Params) (m : Mode) : acceptRegs m f = cycleRegs p m f 0 := by
  have hstart := cycleRegs_halfSlot (p := p) f (halfSlotCount_pos m) (P_pos p)
  rw [Nat.zero_mul] at hstart
  exact hstart.symm

theorem halfSlot_toNat (hq : q < halfSlotCount m) : (BitVec.ofNat 6 q).toNat = q := by
  have hcount := halfSlotCount_le m
  rw [BitVec.toNat_ofNat]
  omega

/-- Registers inside a half-slot of their frame, at its level, are those of a cycle of the frame. -/
theorem eq_cycleRegs {r : Regs} (hbusy : r.busy = true) (hh : r.h.toNat < halfSlotCount r.mode) (hc : r.c < p.P)
    (hlevel : r.irOut = level r.mode r.frame r.h) : r = cycleRegs p r.mode r.frame (r.h.toNat * p.P + r.c) := by
  rw [cycleRegs_halfSlot _ hh hc, BitVec.ofNat_toNat, BitVec.setWidth_eq, ← hbusy, ← hlevel]

/-- A clock edge without a reset goes from one cycle of a frame to the next, and from the last one to the idle registers. -/
theorem EdgeStep.cycleRegs_succ {r' : Regs} {i : Input} (h : EdgeStep p (cycleRegs p m f n) i r') (hrst : i.rst = false)
    (hn : n < halfSlotCount m * p.P) : r' = cycleRegs p m f (n + 1) := by
  obtain ⟨q, c, rfl, hq, hc⟩ := exists_halfSlot hn
  have htoNat := halfSlot_toNat hq
  rw [cycleRegs_halfSlot f hq hc] at h
  cases h with
  | reset hrst' => simp [hrst] at hrst'
  | nop _ hbusy => cases hbusy
  | accept _ hbusy => cases hbusy
  | hold _ _ hcdone =>
    have hinc : incC p c = c + 1 := incC_of_not_cdone hc hcdone
    have hne : c ≠ p.pLast := (cdone_eq_false_iff _ _).1 hcdone
    rw [Nat.add_assoc, cycleRegs_halfSlot f hq (by rw [P_eq] at hc ⊢; omega), ← hinc]
  | advance _ _ hcdone hhlast =>
    have hclast : c = p.pLast := beq_iff_eq.1 hcdone
    have hne : q ≠ halfSlotCount m - 1 := htoNat ▸ (hlast_eq_false_iff _).1 hhlast
    have hnext : q * p.P + c + 1 = (q + 1) * p.P + 0 := by
      rw [hclast, Nat.succ_mul, P_eq]
      omega
    rw [hnext, cycleRegs_halfSlot f (by omega) (P_pos p), BitVec.ofNat_add]
    rfl
  | finish _ _ hcdone hhlast =>
    have hclast : c = p.pLast := beq_iff_eq.1 hcdone
    have hlast : q = halfSlotCount m - 1 := htoNat ▸ beq_iff_eq.1 hhlast
    have hend : q * p.P + c + 1 = halfSlotCount m * p.P := by
      rw [hclast, Nat.add_assoc, ← P_eq, ← Nat.succ_mul, hlast, Nat.succ_eq_add_one, Nat.sub_add_cancel (halfSlotCount_pos m)]
    rw [hend, cycleRegs_end]

end CycleRegs

end Sys2Proof.Machine
end

section
/-! SUPPORT. The clock edges of a frame, any number of them: the run, and the levels on the line (41_transmitter.md R112, log 7). -/

namespace Sys2Proof.Machine

/-- The machine is in cycle `n` of a frame, or just past its last one, and the host follows no model frame. -/
structure InCycle (s : State) (m : Mode) (f : FrameWord) (n : Nat) : Prop where
  live : s.live = true
  noElements : s.elements = []
  regs : s.regs = cycleRegs s.params m f n

/-- `t` is `k` cycles after `s`, with `after` left of the script. -/
structure CyclesOn (s t : State) (k : Nat) (after : List Stmt) : Prop where
  params : t.params = s.params
  script : t.script = after
  cycle : t.cycle = s.cycle + k

/-- The levels of cycles `n` to `n + k - 1` of a frame. -/
def cycleLevels (p : Params) (m : Mode) (f : FrameWord) (n k : Nat) : List Level :=
  (List.range' n k).map fun j => (cycleRegs p m f j).irOut

/-- Past its first reset and without a model frame, every step is a clock edge. -/
theorem step_noElements {s : State} (hlive : s.live = true) (helems : s.elements = []) :
    ∃ t, step s = .next t ∧ EdgeStep s.params s.regs s.input t.regs ∧ CyclesOn s t 1 s.presented.2 ∧
      t.live = true ∧ t.elements = [] ∧ t.line = [t.regs.irOut] := by
  have hedge := atEdge_of_no_elements hlive helems
  obtain ⟨t, hstep, hregs⟩ := step_atEdge_regs hedge
  obtain ⟨t', hstep', hparams, hlive', hscript, hcycle, hline, helems'⟩ := modelFieldsAfterAnInstruction.2 s hedge
  cases hstep'.symm.trans hstep
  rw [helems, ite_self] at helems'
  exact ⟨t, hstep, hregs, ⟨hparams, hscript, hcycle⟩, hlive', helems', hline⟩

/-- A request to an idle block begins cycle 0 of its frame. -/
theorem step_accept {s : State} (hlive : s.live = true) (helems : s.elements = []) (hbusy : s.regs.busy = false)
    (hrst : s.input.rst = false) (hstart : s.input.start = true) :
    ∃ t, step s = .next t ∧ InCycle t (modeOf s.input.desc) (encodeFrame s.input.desc) 0 ∧ CyclesOn s t 1 s.presented.2 := by
  obtain ⟨t, hstep, hregs, hon, hlive', helems', -⟩ := step_noElements hlive helems
  refine ⟨t, hstep, ⟨hlive', helems', ?_⟩, hon⟩
  rw [← acceptRegs_eq_cycleRegs]
  generalize t.regs = r at hregs
  cases hregs with
  | accept => rfl
  | reset hrst' => simp [hrst] at hrst'
  | nop _ _ hstart' => simp [hstart] at hstart'
  | hold _ hbusy' | advance _ hbusy' | finish _ hbusy' => simp [hbusy] at hbusy'

/-- A cycle of a frame without a reset is followed by the next one, and the line has that one's level. -/
theorem InCycle.next_cycle {s : State} {m : Mode} {f : FrameWord} {n : Nat} {i : Input} {rest : List Stmt} (hs : InCycle s m f n)
    (hn : n < halfSlotCount m * s.params.P) (hpresent : present s.script true = some (i, rest)) (hrst : i.rst = false) :
    ∃ t, step s = .next t ∧ InCycle t m f (n + 1) ∧ CyclesOn s t 1 rest ∧ t.line = [t.regs.irOut] := by
  have hpresented : s.presented = (i, rest) := by
    rw [State.presented, hs.regs, cycleRegs_busy f hn, hpresent]
    rfl
  obtain ⟨t, hstep, hregs, hon, hlive, helems, hline⟩ := step_noElements hs.live hs.noElements
  rw [State.input, hpresented, hs.regs] at hregs
  rw [hpresented] at hon
  exact ⟨t, hstep, ⟨hlive, helems, hon.params ▸ hregs.cycleRegs_succ f hrst hn⟩, hon, hline⟩

/-- `k` cycles of a frame without a reset. -/
theorem InCycle.run_cycles {m : Mode} {f : FrameWord} {after : List Stmt} :
    ∀ {k n : Nat} {s : State}, InCycle s m f n → n + k ≤ halfSlotCount m * s.params.P → passQuiet k s.script = some after →
      (∃ t, run k s = .next t ∧ InCycle t m f (n + k) ∧ CyclesOn s t k after) ∧
        wave k s = cycleLevels s.params m f (n + 1) k
  | 0, n, s, hs, _, hquiet => by
    rw [passQuiet] at hquiet
    exact ⟨⟨s, rfl, hs, rfl, Option.some.inj hquiet, rfl⟩, rfl⟩
  | k + 1, n, s, hs, hn, hquiet => by
    obtain ⟨i, rest, hpresent, hrst, hquiet⟩ := passQuiet_succ hquiet
    obtain ⟨u, hstep, hu, hon, hline⟩ := hs.next_cycle (by omega) hpresent hrst
    obtain ⟨⟨t, hrun, ht, hont⟩, hwave⟩ := hu.run_cycles (k := k) (by rw [hon.params]; omega) (by rw [hon.script, hquiet])
    refine ⟨⟨t, run_succ.2 ⟨u, hstep, hrun⟩, by rwa [Nat.add_right_comm] at ht, ?_⟩, ?_⟩
    · exact ⟨hont.params.trans hon.params, hont.script, by rw [hont.cycle, hon.cycle]; omega⟩
    · simp only [wave, hstep]
      rw [hline, hu.regs, hwave, hon.params]
      rfl

/-- A run goes on from where its first part ends. -/
theorem run_add {a : Nat} {s t : State} (h : run a s = .next t) (b : Nat) : run (a + b) s = run b t := by
  induction a generalizing s with
  | zero =>
    cases h
    rw [Nat.zero_add]
  | succ a ih =>
    obtain ⟨u, hstep, hrun⟩ := run_succ.1 h
    rw [Nat.succ_add, run, hstep]
    exact ih hrun

theorem ready_iff (s : State) : s.ready = true ↔ s.live = true ∧ s.regs.busy = false ∧ s.elements = [] := by
  simp [State.ready, and_assoc]

/-- Driven cycles without a reset are passed one at a time. -/
theorem passQuiet_drive {ins : List Input} (hquiet : ∀ i ∈ ins, i.rst = false) :
    ∀ n ≤ ins.length, passQuiet n (ins.map .drive) = some ((ins.drop n).map .drive) := by
  induction ins with
  | nil =>
    intro n hn
    rw [Nat.le_zero.1 hn]
    rfl
  | cons i ins ih =>
    rintro (_ | n) hn
    · rfl
    · rw [List.map_cons, passQuiet, hquiet i List.mem_cons_self, if_neg Bool.false_ne_true,
        ih (fun j hj => hquiet j (List.mem_cons_of_mem _ hj)) n (Nat.le_of_succ_le_succ hn), List.drop_succ_cons]

/-- A ready block accepts the descriptor that its host requests, and is in cycle 0 of the frame. -/
theorem step_tx {s : State} {v : Desc} {rest : List Stmt} (hready : s.ready = true) (hscript : s.script = .tx v :: rest) :
    ∃ t, step s = .next t ∧ InCycle t (modeOf v) (encodeFrame v) 0 ∧ CyclesOn s t 1 rest := by
  obtain ⟨hlive, hbusy, helems⟩ := (ready_iff s).1 hready
  have hpresented : s.presented = (⟨false, true, v⟩, rest) := by rw [State.presented, hscript]; rfl
  have haccept := step_accept hlive helems hbusy
  rw [State.input, hpresented] at haccept
  exact haccept rfl rfl

/-- The state `n` cycles after an accept, where no reset cuts the frame off. -/
theorem run_tx {s : State} {v : Desc} {ins : List Input} {n : Nat} (hready : s.ready = true)
    (hscript : s.script = .tx v :: ins.map .drive) (hquiet : ∀ i ∈ ins, i.rst = false) (hlen : n ≤ ins.length)
    (hn : n ≤ halfSlotCount (modeOf v) * s.params.P) :
    ∃ t, run (n + 1) s = .next t ∧ InCycle t (modeOf v) (encodeFrame v) n ∧ t.params = s.params ∧
      t.script = (ins.drop n).map .drive := by
  obtain ⟨u, hstep, hu, hon⟩ := step_tx hready hscript
  obtain ⟨⟨t, hrun, ht, hont⟩, -⟩ := hu.run_cycles (k := n) (by rwa [hon.params, Nat.zero_add])
    (by rw [hon.script]; exact passQuiet_drive hquiet n hlen)
  exact ⟨t, run_succ.2 ⟨u, hstep, hrun⟩, by rwa [Nat.zero_add] at ht, hont.params.trans hon.params, hont.script⟩

end Sys2Proof.Machine
end

section
/-! PROOFS. The statements of 41_transmitter.md on the timing of a frame. -/

namespace Sys2Proof.Machine

/-- Settles O47: the registers of cycle `n` of a frame by an induction over its clock edges, the end of the frame as its cycle `H * P`,
and a request in it as an accept. -/
theorem frameTiming : Obligations.FrameTiming := fun s v ins hready hscript hquiet => by
  refine ⟨fun n hlen hn => ?during, fun hlen => ?after, by decide, by decide⟩
  case during =>
    obtain ⟨t, hrun, ht, hparams, -⟩ := run_tx hready hscript hquiet hlen hn.le
    have hq : n / s.params.P < halfSlotCount (modeOf v) := Nat.div_lt_of_lt_mul (by rwa [Nat.mul_comm])
    have hregs := ht.regs
    rw [hparams, cycleRegs, if_pos hn] at hregs
    refine ⟨t, hrun, ?_⟩
    rw [halfSlots, halfSlotsOf_getElem? hq, hregs]
    exact ⟨rfl, rfl, rfl, halfSlot_toNat hq, rfl, rfl⟩
  case after =>
    obtain ⟨t, hrun, ht, hparams, hscript'⟩ := run_tx hready hscript hquiet hlen le_rfl
    have hregs := ht.regs
    rw [hparams, cycleRegs_end] at hregs
    refine ⟨t, hrun, by rw [hregs], by rw [hregs], fun i hi hstart => ?_⟩
    obtain ⟨hlt, hget⟩ := List.getElem?_eq_some_iff.1 hi
    have hinput : t.input = i := by
      rw [State.input, State.presented, hscript', List.drop_eq_getElem_cons hlt, hget]
      rfl
    obtain ⟨u, hstep, hu, -⟩ := step_accept ht.live ht.noElements (by rw [hregs])
      (hinput ▸ hquiet i (hget ▸ List.getElem_mem hlt)) (hinput ▸ hstart)
    have huregs := hu.regs
    rw [← acceptRegs_eq_cycleRegs] at huregs
    refine ⟨u, ?_, by rw [huregs]; rfl, by rw [huregs, acceptRegs_irOut, level_encodeFrame_zero]⟩
    rw [run_add hrun 1]
    exact run_succ.2 ⟨u, hstep, rfl⟩

/-- Settles O48: in each cycle both runs have the registers of that cycle of the frame. -/
theorem equalDescriptorsEqualWaveforms : Obligations.EqualDescriptorsEqualWaveforms :=
  fun s s' v ins ins' hready hready' hparams hscript hscript' hquiet hquiet' n hlen hlen' hn => by
    obtain ⟨t, hrun, ht, htparams, -⟩ := run_tx hready hscript hquiet hlen hn
    obtain ⟨t', hrun', ht', htparams', -⟩ := run_tx hready' hscript' hquiet' hlen' (hparams ▸ hn)
    have hregs : t.regs = t'.regs := by rw [ht.regs, ht'.regs, htparams, htparams', hparams]
    exact ⟨t, t', hrun, hrun', by rw [hregs], by rw [hregs]⟩

end Sys2Proof.Machine
end

section
/-! SUPPORT. An element step in the cycles of its frame: where it starts and stops, and its levels cycle by cycle
(41_transmitter.md R98 to R100, log 6, log 7). -/

namespace Sys2Proof.Machine

section Levels
variable {p : Params} {m : Mode} (f : FrameWord)

theorem cycleLevels_append (p : Params) (m : Mode) (n a b : Nat) :
    cycleLevels p m f n a ++ cycleLevels p m f (n + a) b = cycleLevels p m f n (a + b) := by
  rw [cycleLevels, cycleLevels, cycleLevels, ← List.map_append, List.range'_append_1]

/-- The P cycles of a half-slot have its level. -/
theorem cycleLevels_halfSlot {q : Nat} (hq : q < halfSlotCount m) :
    cycleLevels p m f (q * p.P) p.P = List.replicate p.P (level m f (BitVec.ofNat 6 q)) := by
  refine List.eq_replicate_iff.2 ⟨by simp [cycleLevels], fun v hv => ?_⟩
  obtain ⟨j, hj, rfl⟩ := List.mem_map.1 hv
  rw [List.mem_range'_1] at hj
  rw [show j = q * p.P + (j - q * p.P) by omega, cycleRegs_halfSlot f hq (by omega)]

/-- The levels cycle by cycle are those of the half-slots, P cycles each. -/
theorem cycleLevels_eq_stretch {q n : Nat} (hn : q + n ≤ halfSlotCount m) :
    cycleLevels p m f (q * p.P) (n * p.P) = stretch p (levelsFrom m f q n) := by
  induction n generalizing q with
  | zero => rw [Nat.zero_mul]; rfl
  | succ n ih =>
    rw [Nat.succ_mul, Nat.add_comm, ← cycleLevels_append, ← Nat.succ_mul, ih (by omega), cycleLevels_halfSlot f (by omega)]
    rfl

end Levels

theorem two_le_halves_length (e : Element) : 2 ≤ (halves e).length := by
  cases e <;> simp [halves]

section Boundary
variable {p : Params} {r : Regs} (hb : atElementBoundary p r = true)
include hb

theorem boundary_h_lt : r.h.toNat < halfSlotCount r.mode := by
  obtain ⟨-, hh, -⟩ := (atElementBoundary_iff p r).1 hb
  exact hh

/-- A boundary is the first cycle of an element or the last cycle of the one before it. -/
theorem boundary_cases :
    (r.h.getLsbD 0 = false ∧ r.h.toNat % 2 = 0 ∧ r.c = 0) ∨ (r.h.getLsbD 0 = true ∧ r.h.toNat % 2 = 1 ∧ r.c = p.pLast) := by
  obtain ⟨-, -, -, -, hc⟩ := (atElementBoundary_iff p r).1 hb
  have hbit : r.h.getLsbD 0 = decide (r.h.toNat % 2 = 1) := by rw [BitVec.getLsbD, Nat.testBit_zero]
  cases hodd : r.h.getLsbD 0
  case false =>
    rw [hodd] at hc hbit
    exact .inl ⟨rfl, by simpa using hbit.symm, hc⟩
  case true =>
    rw [hodd] at hc hbit
    exact .inr ⟨rfl, by simpa using hbit.symm, hc⟩

theorem boundary_start : (elementStart r.h).toNat = r.h.toNat + r.h.toNat % 2 :=
  elementStart_toNat (by have := boundary_h_lt hb; have := halfSlotCount_le r.mode; omega)

theorem boundary_end {n : Nat} (hn4 : n ≤ 4) : (elementEnd r.h n).toNat = (elementStart r.h).toNat + (n - 1) := by
  have hh := boundary_h_lt hb
  have hcount := halfSlotCount_le r.mode
  rw [boundary_start hb, elementEnd_toNat (by omega) hn4]

/-- At an element boundary the registers are those of the cycle they stand in. -/
theorem boundary_eq_cycleRegs : r = cycleRegs p r.mode r.frame (r.h.toNat * p.P + r.c) := by
  obtain ⟨hbusy, hh, hlevel, -⟩ := (atElementBoundary_iff p r).1 hb
  refine eq_cycleRegs hbusy hh ?_ hlevel
  rw [P_eq]
  rcases boundary_cases hb with ⟨-, -, hc⟩ | ⟨-, -, hc⟩ <;> omega

/-- From the first cycle of an element its last one is one clock edge less than its cycles away. -/
theorem boundary_edgesToSend {n : Nat} (hn : 1 ≤ n) (hn4 : n ≤ 4) :
    edgesToSend p r n = n * p.P - if r.h.getLsbD 0 then 0 else 1 := by
  have hend := boundary_end hb hn4
  rw [boundary_start hb, Nat.add_assoc] at hend
  rw [edgesToSend_eq hend]
  rcases boundary_cases hb with ⟨hbit, hpar, hc⟩ | ⟨hbit, hpar, hc⟩ <;> rw [hbit, hpar, hc]
  · rw [show 0 + (n - 1) + 1 = n by omega]
    rfl
  · rw [show 1 + (n - 1) + 1 = n + 1 by omega, Nat.succ_mul, P_eq]
    rw [if_pos rfl]
    omega

/-- The element that starts next ends `n` half-slots after it starts. -/
theorem boundary_add_edgesToSend {n : Nat} (hn : 1 ≤ n) (hn4 : n ≤ 4) :
    r.h.toNat * p.P + r.c + edgesToSend p r n = ((elementStart r.h).toNat + n) * p.P - 1 := by
  have hpos : 1 ≤ n * p.P := Nat.mul_pos hn (P_pos p)
  rw [boundary_start hb, boundary_edgesToSend hb hn hn4, Nat.add_mul]
  rcases boundary_cases hb with ⟨hbit, hpar, hc⟩ | ⟨hbit, hpar, hc⟩ <;> rw [hbit, hpar, hc]
  · rw [Nat.add_zero, Nat.add_zero, if_neg Bool.false_ne_true]
    omega
  · rw [Nat.succ_mul, if_pos rfl, P_eq]
    omega

/-- The levels of the next element cycle by cycle: at its first cycle the line has the first of them already. -/
theorem boundary_cycleLevels {n : Nat} (hn : 1 ≤ n) (hn4 : n ≤ 4) :
    cycleLevels p r.mode r.frame ((elementStart r.h).toNat * p.P) (n * p.P) =
      (if r.h.getLsbD 0 then [] else [r.irOut]) ++
        cycleLevels p r.mode r.frame (r.h.toNat * p.P + r.c + 1) (edgesToSend p r n) := by
  have hpos : 1 ≤ n * p.P := Nat.mul_pos hn (P_pos p)
  have hirOut := congrArg Regs.irOut (boundary_eq_cycleRegs hb)
  rw [boundary_start hb, boundary_edgesToSend hb hn hn4]
  rcases boundary_cases hb with ⟨hbit, hpar, hc⟩ | ⟨hbit, hpar, hc⟩ <;> rw [hbit, hpar, hc]
  · rw [hc, Nat.add_zero] at hirOut
    rw [if_neg Bool.false_ne_true, if_neg Bool.false_ne_true, Nat.add_zero, Nat.add_zero, hirOut,
      show n * p.P = 1 + (n * p.P - 1) by omega, ← cycleLevels_append, Nat.add_sub_cancel_left]
    rfl
  · rw [if_pos rfl, if_pos rfl, List.nil_append, Nat.sub_zero, Nat.succ_mul, P_eq, Nat.add_assoc]

variable {e : Element} (hnext : (remainingElements r).head? = some e)
include hnext

/-- The halves of the next element are the levels of its half-slots. -/
theorem halves_of_next : halves e = levelsFrom r.mode r.frame (elementStart r.h).toNat (halves e).length := by
  obtain ⟨-, -, -, hpause, -⟩ := (atElementBoundary_iff p r).1 hb
  have hstart := boundary_start hb
  rw [remainingElements, List.head?_drop] at hnext
  refine halves_eq_levelsFrom (by omega) (fun hm h18 => ?_) hnext
  obtain ⟨h17', h18'⟩ := hpause hm
  rw [ne_eq, ← BitVec.toNat_inj] at h17' h18'
  simp only [BitVec.toNat_ofNat] at h17' h18'
  omega

/-- The next element ends inside its frame. -/
theorem next_in_frame : (elementStart r.h).toNat + (halves e).length ≤ halfSlotCount r.mode := by
  have hlen := two_le_halves_length e
  obtain ⟨hlt, -⟩ := elementEnd_in_frame hb hnext
  rw [boundary_end hb (halves_length_le e)] at hlt
  omega

/-- The registers after the next element are those of its last cycle. -/
theorem next_eq_cycleRegs :
    { r with h := elementEnd r.h (halves e).length, c := p.pLast, irOut := (halves e).getLastD r.irOut } =
      cycleRegs p r.mode r.frame (((elementStart r.h).toNat + (halves e).length) * p.P - 1) := by
  have hlen := two_le_halves_length e
  obtain ⟨hlt, hlevel⟩ := elementEnd_in_frame hb hnext
  have hcycle : ((elementStart r.h).toNat + (halves e).length) * p.P - 1 =
      (elementEnd r.h (halves e).length).toNat * p.P + p.pLast := by
    rw [boundary_end hb (halves_length_le e), show (elementStart r.h).toNat + (halves e).length
      = (elementStart r.h).toNat + ((halves e).length - 1) + 1 by omega, Nat.succ_mul, P_eq]
    rfl
  rw [hcycle]
  have hbusy := busy_of_boundary hb
  exact eq_cycleRegs (r := { r with h := _, c := _, irOut := _ }) hbusy hlt (Nat.lt_succ_self _) hlevel

end Boundary

/-- A step that sends the next element of the frame: it stops in the element's last cycle, and its levels are on the line. -/
theorem step_played {s : State} {e : Element} {rest : List ElementCode} {after : List Stmt} (hlive : s.live = true)
    (hcodes : 0b11#2 ∉ s.elements) (helems : s.elements = elementCode e :: rest)
    (hnext : (remainingElements s.regs).head? = some e) (hb : atElementBoundary s.params s.regs = true)
    (hquiet : passQuiet (edgesToSend s.params s.regs (halves e).length) s.script = some after) :
    ∃ t, step s = .next t ∧ t.live = true ∧ t.elements = rest ∧
      t.regs = cycleRegs s.params s.regs.mode s.regs.frame (((elementStart s.regs.h).toNat + (halves e).length) * s.params.P - 1) ∧
      CyclesOn s t (edgesToSend s.params s.regs (halves e).length) after ∧ t.line = stretch s.params (halves e) := by
  have hbusy := busy_of_boundary hb
  have hlen := two_le_halves_length e
  have hrst : s.input.rst = false := by
    have hedges := boundary_edgesToSend hb (Nat.le_of_succ_le hlen) (halves_length_le e)
    have hcycles : 2 ≤ (halves e).length * s.params.P := Nat.mul_le_mul hlen (P_pos s.params)
    obtain ⟨k, hk⟩ : ∃ k, edgesToSend s.params s.regs (halves e).length = k + 1 :=
      Nat.exists_eq_add_one.2 (by split_ifs at hedges <;> omega)
    exact input_rst_of_passQuiet hbusy (hk ▸ hquiet)
  obtain ⟨i, hdecode⟩ := exists_decode_elementCode e
  have hstep := step_element hrst hlive hbusy hcodes
    (playedElement_eq_some.2 ⟨e, rest, after, helems, hnext, hb, hquiet, hdecode, rfl⟩)
  rw [exec_element e _ hdecode] at hstep
  refine ⟨_, hstep, hlive, rfl, ?_, ⟨rfl, rfl, rfl⟩, rfl⟩
  rw [sendElement_regs]
  exact next_eq_cycleRegs hb hnext

end Sys2Proof.Machine
end

section
/-! SUPPORT. A host that follows a frame an element at a time (41_transmitter.md R93, R97, log 6). -/

namespace Sys2Proof.Machine

section CycleRegsFields
variable (p : Params) (m : Mode) (f : FrameWord) (n : Nat)

@[simp] theorem cycleRegs_mode : (cycleRegs p m f n).mode = m := by
  rw [cycleRegs]
  split_ifs <;> rfl

@[simp] theorem cycleRegs_frame : (cycleRegs p m f n).frame = f := by
  rw [cycleRegs]
  split_ifs <;> rfl

/-- A cycle of a frame is counted by its half-slot and the cycle in it. -/
theorem cycleRegs_cycle {p : Params} {m : Mode} {n : Nat} (hn : n < halfSlotCount m * p.P) :
    (cycleRegs p m f n).h.toNat * p.P + (cycleRegs p m f n).c = n := by
  obtain ⟨q, c, rfl, hq, hc⟩ := exists_halfSlot hn
  rw [cycleRegs_halfSlot f hq hc, halfSlot_toNat hq]

end CycleRegsFields

/-- An element starts inside its frame. -/
theorem elementOffset_lt {m : Mode} {f : FrameWord} {k : Nat} (hk : k < (elementsOf m f).length) :
    elementOffset m k < halfSlotCount m := by
  cases m with
  | standard =>
    rw [elementsOf_standard_length] at hk
    simp only [elementOffset, halfSlotCount]
    omega
  | extended =>
    rw [elementsOf_extended_length] at hk
    simp only [elementOffset, halfSlotCount]
    split_ifs <;> omega

/-- The first cycle of a frame and the last cycle of each of its elements are element boundaries, before the next element. -/
theorem boundary_at_offset {p : Params} {m : Mode} {f : FrameWord} {k : Nat} (hk : k < (elementsOf m f).length) :
    atElementBoundary p (cycleRegs p m f (elementOffset m k * p.P - 1)) = true ∧
      (elementStart (cycleRegs p m f (elementOffset m k * p.P - 1)).h).toNat = elementOffset m k := by
  have hlt := elementOffset_lt hk
  have heven := elementOffset_even m k
  have h18 : m = .extended → elementOffset m k ≠ 18 := by
    rintro rfl
    exact elementOffset_extended_ne k
  generalize elementOffset m k = j at hlt heven h18
  rcases j with _ | j
  · rw [Nat.zero_mul, Nat.zero_sub, ← acceptRegs_eq_cycleRegs]
    refine ⟨(atElementBoundary_iff _ _).2 ⟨rfl, hlt, rfl, fun _ => by simp, by simp⟩, by rw [acceptRegs_h]; rfl⟩
  · have hcycle : (j + 1) * p.P - 1 = j * p.P + p.pLast := by rw [Nat.succ_mul, P_eq]; rfl
    have hj : j < halfSlotCount m := by omega
    have htoNat := halfSlot_toNat hj
    have hcount := halfSlotCount_le m
    rw [hcycle, cycleRegs_halfSlot f hj (Nat.lt_succ_self _)]
    refine ⟨(atElementBoundary_iff _ _).2 ⟨rfl, ?_, rfl, fun hm => ?_, ?_⟩, ?_⟩
    · rwa [htoNat]
    · have h18 := h18 hm
      simp only [ne_eq, ← BitVec.toNat_inj, htoNat, BitVec.toNat_ofNat]
      omega
    · have hodd : (BitVec.ofNat 6 j).getLsbD 0 = true := by
        rw [BitVec.getLsbD, htoNat, Nat.testBit_zero]
        exact decide_eq_true (by omega)
      rw [if_pos hodd]
    · rw [elementStart_toNat (by rw [htoNat]; omega), htoNat]
      omega

/-- The host follows the block by the elements of a frame from element `k` on, and waits meanwhile. -/
structure Follows (s : State) (m : Mode) (f : FrameWord) (k : Nat) : Prop where
  live : s.live = true
  elements : s.elements = ((elementsOf m f).drop k).map elementCode
  regs : s.regs = cycleRegs s.params m f (elementOffset m k * s.params.P - 1)
  quiet : ∀ n, passQuiet n s.script = some s.script

/-- One step sends element `k`. -/
theorem Follows.next_element {s : State} {m : Mode} {f : FrameWord} {k : Nat} (hs : Follows s m f k) (hk : k < (elementsOf m f).length) :
    ∃ t, step s = .next t ∧ Follows t m f (k + 1) ∧ t.params = s.params ∧
      t.cycle + (elementOffset m k * s.params.P - 1) = s.cycle + (elementOffset m (k + 1) * s.params.P - 1) ∧
      t.line = stretch s.params (halves (elementsOf m f)[k]) := by
  obtain ⟨hb, hstart⟩ := boundary_at_offset (p := s.params) hk
  rw [← hs.regs] at hb hstart
  have hmode : s.regs.mode = m := by rw [hs.regs, cycleRegs_mode]
  have hframe : s.regs.frame = f := by rw [hs.regs, cycleRegs_frame]
  have hget : (elementsOf m f)[k]? = some (elementsOf m f)[k] := List.getElem?_eq_getElem hk
  have hnext : (remainingElements s.regs).head? = some (elementsOf m f)[k] := by
    rw [remainingElements, List.head?_drop, hstart, hmode, hframe, elementIndex_elementOffset, hget]
  have helems : s.elements = elementCode (elementsOf m f)[k] :: ((elementsOf m f).drop (k + 1)).map elementCode := by
    rw [hs.elements, List.drop_eq_getElem_cons hk, List.map_cons]
  have hcodes : 0b11#2 ∉ s.elements := by
    rw [hs.elements, List.mem_map]
    rintro ⟨e, -, he⟩
    exact elementCode_ne_reserved e he
  obtain ⟨t, hstep, hlive, helems', hregs, hon, hline⟩ := step_played hs.live hcodes helems hnext hb (hs.quiet _)
  rw [hstart, hmode, hframe, ← elementOffset_succ hget] at hregs
  have hcycle : s.regs.h.toNat * s.params.P + s.regs.c = elementOffset m k * s.params.P - 1 := by
    have hlt := Nat.mul_lt_mul_of_pos_right (elementOffset_lt hk) (P_pos s.params)
    rw [hs.regs]
    exact cycleRegs_cycle f (by omega)
  have hend := boundary_add_edgesToSend hb (Nat.le_of_succ_le (two_le_halves_length (elementsOf m f)[k])) (halves_length_le _)
  rw [hcycle, hstart, ← elementOffset_succ hget] at hend
  refine ⟨t, hstep, ⟨hlive, helems', hon.params.symm ▸ hregs, by rw [hon.script]; exact hs.quiet⟩, hon.params, ?_, hline⟩
  rw [hon.cycle, ← hend]
  omega

/-- `n` steps send the elements from element `k` on, and their levels are on the line in turn. -/
theorem Follows.run_elements {m : Mode} {f : FrameWord} :
    ∀ {n k : Nat} {s : State}, Follows s m f k → k + n ≤ (elementsOf m f).length →
      (∃ t, run n s = .next t ∧ Follows t m f (k + n) ∧ t.params = s.params ∧
        t.cycle + (elementOffset m k * s.params.P - 1) = s.cycle + (elementOffset m (k + n) * s.params.P - 1)) ∧
        wave n s = stretch s.params ((((elementsOf m f).drop k).take n).flatMap halves)
  | 0, k, s, hs, _ => ⟨⟨s, rfl, hs, rfl, rfl⟩, by rw [List.take_zero]; rfl⟩
  | n + 1, k, s, hs, hn => by
    obtain ⟨u, hstep, hu, huparams, hucycle, hline⟩ := hs.next_element (by omega)
    obtain ⟨⟨t, hrun, ht, htparams, htcycle⟩, hwave⟩ := hu.run_elements (n := n) (by omega)
    rw [huparams] at htparams htcycle hwave
    refine ⟨⟨t, run_succ.2 ⟨u, hstep, hrun⟩, by rwa [Nat.add_right_comm] at ht, htparams, ?_⟩, ?_⟩
    · rw [Nat.add_right_comm] at htcycle
      rw [← Nat.add_assoc]
      omega
    · simp only [wave, hstep]
      rw [hline, hwave, ← stretch_append, List.drop_eq_getElem_cons (show k < (elementsOf m f).length by omega), List.take_succ_cons,
        List.flatMap_cons]

/-- Playing all elements of a frame gives its half-slot sequence and ends in its last cycle. -/
theorem Follows.play {s : State} {m : Mode} {f : FrameWord} (hs : Follows s m f 0) :
    (∃ t, run (elementsOf m f).length s = .next t ∧ InCycle t m f (halfSlotCount m * s.params.P - 1) ∧ t.params = s.params ∧
      t.cycle = s.cycle + (halfSlotCount m * s.params.P - 1) ∧ ∀ n, passQuiet n t.script = some t.script) ∧
      wave (elementsOf m f).length s = stretch s.params (halfSlotsOf m f) := by
  obtain ⟨⟨t, hrun, ht, hparams, hcycle⟩, hwave⟩ := hs.run_elements (n := (elementsOf m f).length) (Nat.zero_add _).le
  obtain ⟨hlive, helems, hregs, hquiet⟩ := ht
  rw [Nat.zero_add, elementOffset_length] at hregs
  rw [Nat.zero_add, List.drop_length] at helems
  rw [Nat.zero_add, elementOffset_length, elementOffset_zero, Nat.zero_mul] at hcycle
  rw [List.drop_zero, List.take_length] at hwave
  exact ⟨⟨t, hrun, ⟨hlive, helems, by rw [hregs, hparams]⟩, hparams, hcycle, hquiet⟩, hwave⟩

/-- The clock edge after the last cycle of a frame leaves the block idle at Low. -/
theorem InCycle.finish {s : State} {m : Mode} {f : FrameWord} (hs : InCycle s m f (halfSlotCount m * s.params.P - 1))
    (hquiet : ∀ n, passQuiet n s.script = some s.script) :
    ∃ t, step s = .next t ∧ t.regs.busy = false ∧ t.regs.irOut = false := by
  have hcycles : 0 < halfSlotCount m * s.params.P := Nat.mul_pos (halfSlotCount_pos _) (P_pos _)
  obtain ⟨i, after, hpresent, hrst, -⟩ := passQuiet_succ (hquiet 1)
  obtain ⟨t, hstep, ht, hon, -⟩ := hs.next_cycle (by omega) hpresent hrst
  have hregs := ht.regs
  rw [hon.params, Nat.sub_add_cancel hcycles, cycleRegs_end] at hregs
  exact ⟨t, hstep, by rw [hregs], by rw [hregs]⟩

end Sys2Proof.Machine
end

section
/-! PROOFS. The statements of 41_transmitter.md on element steps and their clock edges. -/

namespace Sys2Proof.Machine

/-- Settles O51: an element boundary is a cycle of the frame, and the element's last cycle and levels are those of the clock edges
from there. -/
theorem elementStepIsItsClockEdges : Obligations.ElementStepIsItsClockEdges := fun s s' i hlive hcodes hplayed => by
  obtain ⟨e, rest, after, helems, hnext, hb, hquiet, -, -⟩ := playedElement_eq_some.1 hplayed
  have hlen := Nat.le_of_succ_le (two_le_halves_length e)
  have hlen4 := halves_length_le e
  have hin := next_in_frame hb hnext
  have hend := boundary_add_edgesToSend hb hlen hlen4
  have hedge : InCycle { s with elements := [] } s.regs.mode s.regs.frame (s.regs.h.toNat * s.params.P + s.regs.c) :=
    ⟨hlive, rfl, boundary_eq_cycleRegs hb⟩
  obtain ⟨t, hstep, htlive, -, htregs, hton, htline⟩ := step_played hlive hcodes helems hnext hb hquiet
  have hcycles : t.line.length - (if s.regs.h.getLsbD 0 then 0 else 1) = edgesToSend s.params s.regs (halves e).length := by
    rw [htline, length_stretch, boundary_edgesToSend hb hlen hlen4]
  obtain ⟨⟨u, hrun, hu, huon⟩, hwave⟩ := hedge.run_cycles (k := edgesToSend s.params s.regs (halves e).length)
    (by rw [hend]; exact (Nat.sub_le _ _).trans (Nat.mul_le_mul_right _ hin)) hquiet
  refine ⟨t, u, hstep, ?_⟩
  rw [hcycles]
  refine ⟨hrun, ?_, huon.cycle.trans hton.cycle.symm, huon.script.trans hton.script.symm,
    huon.params.trans hton.params.symm, hu.live.trans htlive.symm, ?_⟩
  · rw [hu.regs, htregs, huon.params, hend]
  · have hlevels := boundary_cycleLevels hb hlen hlen4
    rw [cycleLevels_eq_stretch _ hin, ← halves_of_next hb hnext] at hlevels
    rw [hwave, htline]
    exact hlevels

/-- Settles O50: the elements and the clock edges both stop in the last cycle of the frame, and the halves of all its elements are its
half-slot sequence. -/
theorem elementLevelPlaysTheFrame : Obligations.ElementLevelPlaysTheFrame := fun s t v d rest hready hscript hstep => by
  intro u
  obtain ⟨t', hstep', ht, hon⟩ := step_tx hready hscript
  cases hstep'.symm.trans hstep
  have hquiet (n : Nat) : passQuiet n t.script = some t.script := by
    rw [hon.script]
    exact passQuiet_waitIdle n d rest
  have hu : Follows u (modeOf v) (encodeFrame v) 0 := by
    refine ⟨ht.live, rfl, ?_, hquiet⟩
    rw [elementOffset_zero, Nat.zero_mul]
    exact ht.regs
  have huparams : u.params = s.params := hon.params
  obtain ⟨⟨w, hw, hwcycle, hwparams, hwcount, hwquiet⟩, hwave⟩ := hu.play
  obtain ⟨⟨x, hx, hxcycle, hxon⟩, -⟩ :=
    ht.run_cycles (k := halfSlotCount (modeOf v) * s.params.P - 1) (by rw [hon.params]; omega) (hquiet _)
  obtain ⟨y, hy, hbusy, hlow⟩ := (hwparams ▸ hwcycle).finish hwquiet
  refine ⟨huparams ▸ hwave, w, x, y, hw, hx, ?_, ?_, hwcycle.noElements, hy, hbusy, hlow⟩
  · rw [hwcycle.regs, hxcycle.regs, hwparams, hxon.params, huparams, Nat.zero_add]
  · rw [hwcount, hxon.cycle, huparams]

end Sys2Proof.Machine
end

section
/-! PROOFS. The statement of 60_exceptions.md: no step from a state reached by reset faults or is refused. -/

namespace Sys2Proof.Machine

/-- The two refusals contradict the invariant: one needs a reserved element code, the other a state before the first reset. -/
theorem step_next_of_inv {s : State} (hinv : Inv s) : ∃ t, step s = .next t := by
  rcases step_cases s with hedge | ⟨-, -, -, -, i, u, -, hplay⟩ | ⟨-, -, -, hreserved, -⟩ | ⟨-, hlive, -⟩
  · rw [step_atEdge hedge]
    exact exec_next _ _
  · rw [hplay]
    exact exec_next i u
  · exact absurd hreserved hinv.frameCodes
  · simp [hinv.live] at hlive

/-- Settles O41: every state reached from a RESET edge meets the invariant, and the invariant excludes both refusals. -/
theorem noReachedStepStops : Obligations.NoReachedStepStops :=
  ⟨fun _ _ _ hrst hrun => step_next_of_inv (inv_of_reached hrst hrun), fun _ hinv => step_next_of_inv hinv,
    fun _ hlive hrst => step_beforeFirstReset hrst hlive⟩

end Sys2Proof.Machine
end

section
/-! PROOFS. The statement of 70_reset_and_hazards.md: a request that waits for an idle block is accepted. -/

namespace Sys2Proof.Machine

/-- The host's first duty in a cycle with a request: the block is idle in it (70_reset_and_hazards.md R138). -/
theorem serialised_of_start {s : State} (hstart : s.input.start = true) : s.serialised = true ↔ s.regs.busy = false := by
  simp [State.serialised, hstart]

/-- A request to an idle block is accepted, whatever model frame the host holds: that frame is followed by a busy block alone. -/
theorem step_request_of_idle {s : State} (hlive : s.live = true) (hrst : s.input.rst = false) (hidle : s.regs.busy = false)
    (hstart : s.input.start = true) :
    ∃ t, step s = .next t ∧ t.regs = acceptRegs (modeOf s.input.desc) (encodeFrame s.input.desc) := by
  have hedge : s.atEdge := .inr ⟨hlive, .inl hidle⟩
  have hinstr : edgeInstr s.params s.regs s.input =
      if s.input.desc.extractLsb' 16 16 == 0#16 then .txStd s.input.desc else .txExt s.input.desc := by
    simp [edgeInstr_of_idle hidle, hrst, hstart]
  rw [step_atEdge hedge, hinstr, exec_accept]
  exact ⟨_, rfl, fit_acceptRegs _ _ _⟩

/-- Settles O54: the request meets an idle block, and `busy` is a register, so it reads the accept's 1 from the next cycle on. -/
theorem serialisedRequestIsAccepted : Obligations.SerialisedRequestIsAccepted := fun s hlive hrst hstart hserial => by
  have hidle : s.regs.busy = false := (serialised_of_start hstart).1 hserial
  obtain ⟨t, hstep, hregs⟩ := step_request_of_idle hlive hrst hidle hstart
  obtain ⟨-, hbusy, -⟩ := outputsOfACycle s
  obtain ⟨-, hbusy', -⟩ := outputsOfACycle t
  refine ⟨hbusy.trans hidle, t, hstep, ?_, ?_⟩
  · rw [hbusy', hregs, acceptRegs_busy]
  · simp [hregs]

end Sys2Proof.Machine
end
